-- ==== Sys2Proof/Word.lean ====
section
/-! DEFINITION. The word types of the machine (00_scope rules R4 and R7, section 4 "Widths"). -/

namespace Sys2Proof

/-- A byte of memory, a general register or a timer: 8 bits (R4). -/
abbrev Byte := BitVec 8

/-- An instruction word, `I`, `PC`, `OPC` or a stack entry: 16 bits (R4). -/
abbrev Word := BitVec 16

/-- The 12-bit immediate `nnn` of an instruction, and the address of one memory byte (R61, R53). -/
abbrev Imm12 := BitVec 12

/-- A 4-bit field of an instruction word (R61, Glossary "Nibble"). -/
abbrev Nibble := BitVec 4

/-- A register index: one of V0 to VF, each a legal index (R11, R62). -/
abbrev Reg := Fin 16

/-- The index of VF, the register that also takes the flags (R12). -/
abbrev vf : Reg := 15

end Sys2Proof
end

