-- ==== Sys2Proof/Config.lean ====
section
/-! DEFINITION. The implementation parameters of 00_scope rules R4 and R5. -/

namespace Sys2Proof

/-- `MEM_SIZE`: bytes of memory (R4, R40). -/
abbrev Config.memSize : Nat := 4096

/-- `FONT_BASE`: the address of the font region (R4, R41). -/
abbrev Config.fontBase : Nat := 0x050

/-- `FONT_LEN`: the length of the font table in bytes (R4). -/
abbrev Config.fontLen : Nat := 80

/-- `PROG_BASE`: the reset value of `PC` and the load address (R4). -/
abbrev Config.progBase : Word := 0x0200

/-- `MAX_ROM_LEN`: the longest program image in bytes (R4). -/
abbrev Config.maxRomLen : Nat := 3584

/-- `DISPLAY_W`: display columns (R4). -/
abbrev Config.displayW : Nat := 64

/-- `DISPLAY_H`: display rows (R4). -/
abbrev Config.displayH : Nat := 32

/-- The two parameters the source leaves open (R5, decisions D6 and D4). -/
structure Config where
  /-- `STACK_DEPTH`: the most entries the stack may hold; `none` is unbounded. -/
  stackDepth : Option Nat
  /-- `STRICT_LOW_NIBBLE_59`: when true, `5XYn` and `9XYn` with n other than 0 are no instructions. -/
  strictLowNibble59 : Bool
  deriving DecidableEq, Repr

/-- The machine of this model: both parameters at the default R5 states, the spec's own decisions D6 and D4 (log entries
5 and 6); unsafe for a chip with other values. -/
def Config.machine : Config where
  stackDepth := none
  strictLowNibble59 := false

end Sys2Proof
end

