-- ==== Sys2Proof/Syntax.lean ====
section
/-! DEFINITION. The 21 instructions of 30_encoding rule R63, one constructor per row of the opcode table, in the
table's order. A constructor holds every field its encoding has, the ignored ones too (R68), so that no bit of a word
is lost: DESIGN CHOICE (log entry 7), safe. -/

namespace Sys2Proof

/-- An instruction. `x`, `y` are register indices, `n` a 4-bit, `nn` an 8-bit, `nnn` a 12-bit unsigned field (R61). -/
inductive Instr where
  /-- `00E0`: clear the display (R140). -/
  | cls
  /-- `00EE`: return (R100). -/
  | ret
  /-- `1NNN`: jump (R101). -/
  | jp (nnn : Imm12)
  /-- `2NNN`: call (R102). -/
  | call (nnn : Imm12)
  /-- `3XNN`: skip if `V[x] = nn` (R103). -/
  | seImm (x : Reg) (nn : Byte)
  /-- `4XNN`: skip if `V[x] != nn` (R104). -/
  | sneImm (x : Reg) (nn : Byte)
  /-- `5XYn`: skip if `V[x] = V[y]` (R105); `n` is ignored (R66). -/
  | seReg (x y : Reg) (n : Nibble)
  /-- `9XYn`: skip if `V[x] != V[y]` (R106); `n` is ignored (R66). -/
  | sneReg (x y : Reg) (n : Nibble)
  /-- `6XNN`: load immediate (R120). -/
  | ldImm (x : Reg) (nn : Byte)
  /-- `7XNN`: add immediate, no flag (R121). -/
  | addImm (x : Reg) (nn : Byte)
  /-- `8XY0`: copy (R122). -/
  | ldReg (x y : Reg)
  /-- `8XY1`: OR (R123). -/
  | orReg (x y : Reg)
  /-- `8XY2`: AND (R124). -/
  | andReg (x y : Reg)
  /-- `8XY3`: XOR (R125). -/
  | xorReg (x y : Reg)
  /-- `8XY4`: add with carry out in VF (R126). -/
  | addReg (x y : Reg)
  /-- `8XY5`: `V[x] - V[y]`, VF = no borrow (R127). -/
  | sub (x y : Reg)
  /-- `8XY7`: `V[y] - V[x]`, VF = no borrow (R129). -/
  | subn (x y : Reg)
  /-- `8XY6`: shift right, VF = the bit shifted out (R128); `y` is ignored (R68). -/
  | shr (x y : Reg)
  /-- `8XYE`: shift left, VF = the bit shifted out (R130); `y` is ignored (R68). -/
  | shl (x y : Reg)
  /-- `ANNN`: load `I` (R131). -/
  | ldI (nnn : Imm12)
  /-- `DXYN`: draw an `n`-row sprite (R141). -/
  | drw (x y : Reg) (n : Nibble)
  deriving DecidableEq, Repr

end Sys2Proof
end

