-- ==== Sys2Proof/WellFormed.lean ====
section
/-! DEFINITION. Which instruction terms stand for a word of the machine. The fields' types already bound every field
(R61, R62); the one check left is the parameter of R5 and R66. -/

namespace Sys2Proof

/-- The low nibble of `5XYn` and `9XYn` may be anything unless `STRICT_LOW_NIBBLE_59` holds, when it must be 0 (R66). -/
def lowNibbleOk (strict : Bool) (n : Nibble) : Bool :=
  !strict || n == 0

/-- The instruction is one the decoder can give when `STRICT_LOW_NIBBLE_59` is `strict` (R5, R66). -/
def Instr.wellFormed (strict : Bool) : Instr → Bool
  | .seReg _ _ n => lowNibbleOk strict n
  | .sneReg _ _ n => lowNibbleOk strict n
  | .cls => true
  | .ret => true
  | .jp _ => true
  | .call _ => true
  | .seImm _ _ => true
  | .sneImm _ _ => true
  | .ldImm _ _ => true
  | .addImm _ _ => true
  | .ldReg _ _ => true
  | .orReg _ _ => true
  | .andReg _ _ => true
  | .xorReg _ _ => true
  | .addReg _ _ => true
  | .sub _ _ => true
  | .subn _ _ => true
  | .shr _ _ => true
  | .shl _ _ => true
  | .ldI _ => true
  | .drw _ _ _ => true

/-- Well-formed for the machine of this model, whose low nibble check is off (R5). -/
abbrev WellFormed (i : Instr) : Prop :=
  i.wellFormed Config.machine.strictLowNibble59 = true

end Sys2Proof
end

