-- ==== Sys2Proof/Decode.lean ====
section
/-! DEFINITION. Decoder and encoder of 30_encoding (rules R60 to R70), and the opcode table as data (R63). -/

namespace Sys2Proof

/-! ### The fields of a word (R61) -/

/-- `op = opcode[15:12]`, the dispatch key (R61). -/
def fieldOp (w : Word) : Nibble := w.extractLsb' 12 4

/-- `x = opcode[11:8]`, a register index (R61). -/
def fieldX (w : Word) : Reg := ⟨w.toNat / 256 % 16, Nat.mod_lt _ (by decide)⟩

/-- `y = opcode[7:4]`, a register index (R61). -/
def fieldY (w : Word) : Reg := ⟨w.toNat / 16 % 16, Nat.mod_lt _ (by decide)⟩

/-- `n = opcode[3:0]` (R61). -/
def fieldN (w : Word) : Nibble := w.extractLsb' 0 4

/-- `nn = opcode[7:0]` (R61). -/
def fieldNN (w : Word) : Byte := w.extractLsb' 0 8

/-- `nnn = opcode[11:0]` (R61). -/
def fieldNNN (w : Word) : Imm12 := w.extractLsb' 0 12

/-! ### Decoding -/

/-- What the decoder gives: exactly one instruction, or the word named as unknown (R64, R67). -/
inductive Decoded where
  | instr (i : Instr)
  | unknownOpcode (w : Word)
  deriving DecidableEq, Repr

/-- The 0x0 family is matched on the whole word (R65). -/
def decodeSystem (w : Word) : Decoded :=
  if w = 0x00E0 then .instr .cls
  else if w = 0x00EE then .instr .ret
  else .unknownOpcode w

/-- The 0x8 family has its second dispatch on the low nibble (R64). -/
def decodeAlu (w : Word) : Decoded :=
  match fieldN w with
  | 0x0 => .instr (.ldReg (fieldX w) (fieldY w))
  | 0x1 => .instr (.orReg (fieldX w) (fieldY w))
  | 0x2 => .instr (.andReg (fieldX w) (fieldY w))
  | 0x3 => .instr (.xorReg (fieldX w) (fieldY w))
  | 0x4 => .instr (.addReg (fieldX w) (fieldY w))
  | 0x5 => .instr (.sub (fieldX w) (fieldY w))
  | 0x6 => .instr (.shr (fieldX w) (fieldY w))
  | 0x7 => .instr (.subn (fieldX w) (fieldY w))
  | 0xE => .instr (.shl (fieldX w) (fieldY w))
  | _ => .unknownOpcode w

/-- A word of family 5 or 9 is its instruction unless the strict parameter finds a low nibble other than 0 (R66). -/
def decodeSkipReg (strict : Bool) (w : Word) (i : Instr) : Decoded :=
  if lowNibbleOk strict (fieldN w) then .instr i else .unknownOpcode w

/-- The decode algorithm of R64, total on all words. -/
def decodeWord (strict : Bool) (w : Word) : Decoded :=
  match fieldOp w with
  | 0x0 => decodeSystem w
  | 0x1 => .instr (.jp (fieldNNN w))
  | 0x2 => .instr (.call (fieldNNN w))
  | 0x3 => .instr (.seImm (fieldX w) (fieldNN w))
  | 0x4 => .instr (.sneImm (fieldX w) (fieldNN w))
  | 0x5 => decodeSkipReg strict w (.seReg (fieldX w) (fieldY w) (fieldN w))
  | 0x6 => .instr (.ldImm (fieldX w) (fieldNN w))
  | 0x7 => .instr (.addImm (fieldX w) (fieldNN w))
  | 0x8 => decodeAlu w
  | 0x9 => decodeSkipReg strict w (.sneReg (fieldX w) (fieldY w) (fieldN w))
  | 0xA => .instr (.ldI (fieldNNN w))
  | 0xD => .instr (.drw (fieldX w) (fieldY w) (fieldN w))
  | _ => .unknownOpcode w

/-! ### Words and bytes (R43, R70) -/

/-- Two bytes as one word, the first the high byte: the fetch is big-endian (R43). -/
def wordOfBytes (hi lo : Byte) : Word := BitVec.ofNat 16 (hi.toNat * 256 + lo.toNat)

/-- `word[15:8]`, the byte stored at the lower address (R70). -/
def highByte (w : Word) : Byte := w.extractLsb' 8 8

/-- `word[7:0]`, the byte stored at the higher address (R70). -/
def lowByte (w : Word) : Byte := w.extractLsb' 0 8

/-- Decode the two bytes of an instruction as memory holds them (R60, R43). -/
def decodeBytes (strict : Bool) (hi lo : Byte) : Decoded := decodeWord strict (wordOfBytes hi lo)

/-! ### Encoding (R70) -/

/-- Format `NNN`: `op*4096 + nnn` (R70). -/
def encodeNNN (op : Nat) (nnn : Imm12) : Word := BitVec.ofNat 16 (op * 4096 + nnn.toNat)

/-- Format `XNN`: `op*4096 + x*256 + nn` (R70). -/
def encodeXNN (op : Nat) (x : Reg) (nn : Byte) : Word := BitVec.ofNat 16 (op * 4096 + x.val * 256 + nn.toNat)

/-- Formats `XY` and `XYN`: `op*4096 + x*256 + y*16 + n` (R70). -/
def encodeXYN (op : Nat) (x y : Reg) (n : Nibble) : Word :=
  BitVec.ofNat 16 (op * 4096 + x.val * 256 + y.val * 16 + n.toNat)

/-- The word of an instruction (R70 with the `op` and sub-opcode of R63). -/
def encode : Instr → Word
  | .cls => 0x00E0
  | .ret => 0x00EE
  | .jp nnn => encodeNNN 0x1 nnn
  | .call nnn => encodeNNN 0x2 nnn
  | .seImm x nn => encodeXNN 0x3 x nn
  | .sneImm x nn => encodeXNN 0x4 x nn
  | .seReg x y n => encodeXYN 0x5 x y n
  | .sneReg x y n => encodeXYN 0x9 x y n
  | .ldImm x nn => encodeXNN 0x6 x nn
  | .addImm x nn => encodeXNN 0x7 x nn
  | .ldReg x y => encodeXYN 0x8 x y 0x0
  | .orReg x y => encodeXYN 0x8 x y 0x1
  | .andReg x y => encodeXYN 0x8 x y 0x2
  | .xorReg x y => encodeXYN 0x8 x y 0x3
  | .addReg x y => encodeXYN 0x8 x y 0x4
  | .sub x y => encodeXYN 0x8 x y 0x5
  | .subn x y => encodeXYN 0x8 x y 0x7
  | .shr x y => encodeXYN 0x8 x y 0x6
  | .shl x y => encodeXYN 0x8 x y 0xE
  | .ldI nnn => encodeNNN 0xA nnn
  | .drw x y n => encodeXYN 0xD x y n

/-! ### The opcode table as data (R63) -/

/-- A row of the opcode table: a word `w` is the instruction when `w AND mask = match` (R63). -/
structure OpcodeRow where
  pattern : String
  mnemonic : String
  matchBits : Word
  mask : Word
  deriving DecidableEq, Repr

/-- The row of an instruction, with the match and mask of R63 at the default parameters. -/
def Instr.row : Instr → OpcodeRow
  | .cls => ⟨"00E0", "CLS", 0x00E0, 0xFFFF⟩
  | .ret => ⟨"00EE", "RET", 0x00EE, 0xFFFF⟩
  | .jp _ => ⟨"1NNN", "JP nnn", 0x1000, 0xF000⟩
  | .call _ => ⟨"2NNN", "CALL nnn", 0x2000, 0xF000⟩
  | .seImm _ _ => ⟨"3XNN", "SE Vx, nn", 0x3000, 0xF000⟩
  | .sneImm _ _ => ⟨"4XNN", "SNE Vx, nn", 0x4000, 0xF000⟩
  | .seReg _ _ _ => ⟨"5XY0", "SE Vx, Vy", 0x5000, 0xF000⟩
  | .sneReg _ _ _ => ⟨"9XY0", "SNE Vx, Vy", 0x9000, 0xF000⟩
  | .ldImm _ _ => ⟨"6XNN", "LD Vx, nn", 0x6000, 0xF000⟩
  | .addImm _ _ => ⟨"7XNN", "ADD Vx, nn", 0x7000, 0xF000⟩
  | .ldReg _ _ => ⟨"8XY0", "LD Vx, Vy", 0x8000, 0xF00F⟩
  | .orReg _ _ => ⟨"8XY1", "OR Vx, Vy", 0x8001, 0xF00F⟩
  | .andReg _ _ => ⟨"8XY2", "AND Vx, Vy", 0x8002, 0xF00F⟩
  | .xorReg _ _ => ⟨"8XY3", "XOR Vx, Vy", 0x8003, 0xF00F⟩
  | .addReg _ _ => ⟨"8XY4", "ADD Vx, Vy", 0x8004, 0xF00F⟩
  | .sub _ _ => ⟨"8XY5", "SUB Vx, Vy", 0x8005, 0xF00F⟩
  | .subn _ _ => ⟨"8XY7", "SUBN Vx, Vy", 0x8007, 0xF00F⟩
  | .shr _ _ => ⟨"8XY6", "SHR Vx", 0x8006, 0xF00F⟩
  | .shl _ _ => ⟨"8XYE", "SHL Vx", 0x800E, 0xF00F⟩
  | .ldI _ => ⟨"ANNN", "LD I, nnn", 0xA000, 0xF000⟩
  | .drw _ _ _ => ⟨"DXYN", "DRW Vx, Vy, n", 0xD000, 0xF000⟩

/-- The 21 rows in the table's order (R63). -/
def opcodeTable : List OpcodeRow :=
  [Instr.cls, .ret, .jp 0, .call 0, .seImm 0 0, .sneImm 0 0, .seReg 0 0 0, .sneReg 0 0 0, .ldImm 0 0, .addImm 0 0,
    .ldReg 0 0, .orReg 0 0, .andReg 0 0, .xorReg 0 0, .addReg 0 0, .sub 0 0, .subn 0 0, .shr 0 0, .shl 0 0, .ldI 0,
    .drw 0 0 0].map Instr.row

/-- The word matches the row (R63). -/
def OpcodeRow.accepts (r : OpcodeRow) (w : Word) : Bool := w &&& r.mask == r.matchBits

/-! ### The host's view of the decoder -/

/-- An instruction whose lowest `nbits` bits are `w` and whose bits above are 0. Every instruction is one 16-bit word
(R60), so the table's bit 0 is bit 0 of that word. -/
def tableWord (nbits w : Nat) : Word := BitVec.ofNat 16 (w % 2 ^ min nbits 16)

/-- The instruction the decoder reads from the two bytes of `tableWord nbits w`, high byte first. -/
def decodeTableWord (nbits w : Nat) : Option Instr :=
  match decodeBytes Config.machine.strictLowNibble59 (highByte (tableWord nbits w)) (lowByte (tableWord nbits w)) with
  | .instr i => some i
  | .unknownOpcode _ => none

end Sys2Proof
end

