-- ==== Sys2Proof/Machine/State.lean ====
section
/-! DEFINITION. The architectural state of 10_state rule R10, its reset value (R22, R220), and the reasons an
operation can stop (60_exceptions rule R190). -/

namespace Sys2Proof.Machine

/-- The 4096-byte memory (R40), as the list of its bytes other than 0x00 in strictly rising address order. An unlisted
address reads as 0x00, the reset content of every byte (R20, R22). DESIGN CHOICE, the representation (log entry 1),
safe. -/
abbrev Memory := List Host.Cell

/-- The display, 32 rows of 64 pixels; `true` is lit (R17). Row 0 is the top and column 0 the left. DESIGN CHOICE, the
representation (log entry 3), safe. -/
abbrev Display := Vector (Vector Bool Config.displayW) Config.displayH

/-- The ten state elements of R10 and nothing else. -/
structure State where
  /-- The memory (R20, R40). -/
  mem : Memory
  /-- The general registers `V[0]` to `V[15]` (R11); `V[15]` is VF (R12). -/
  v : Vector Byte 16
  /-- The index register `I` (R13). -/
  i : Word
  /-- The program counter `PC`: the address of the next instruction to fetch (R14). -/
  pc : Word
  /-- The call stack, outside memory (R15, R48). The head of the list is the top: DESIGN CHOICE, the order
  (log entry 2), safe. -/
  stack : List Word
  /-- `delayTimer`, `DT` (R16). -/
  dt : Byte
  /-- `soundTimer`, `ST` (R16). -/
  st : Byte
  /-- The display (R17). -/
  disp : Display
  /-- `displayUpdated`, `DU` (R18). -/
  du : Bool
  /-- `currentOpcode`, `OPC`: the word of the last completed step (R19). -/
  opc : Word
  deriving DecidableEq, Repr

/-- The faults of R190. Each is safe: it is the spec's own outcome, reported to the host with no state changed. -/
inductive Fault where
  /-- Raised by `LoadFont` when the table is not 80 bytes long (R194). Safe: the spec's own outcome. -/
  | invalidArgument
  /-- Raised by a fetch with `PC > 4094` (`info` is `PC`), by `DXYN` with a row outside memory (`info` is `I`) and by
  `Load` of more than 3584 bytes (`info` is 0x0200) (R191). Safe: the spec's own outcome. -/
  | outOfBounds (info : Word)
  /-- Raised by `00EE` on an empty stack (R192). Safe: the spec's own outcome. -/
  | emptyStack
  /-- Raised by the decoder on a word that is no instruction; carries the word (R193). Safe: the spec's own outcome. -/
  | unknownOpcode (word : Word)
  /-- Raised by `2NNN` at a finite `STACK_DEPTH` (R195); never with the default. Safe: the spec's own outcome. -/
  | stackOverflow
  deriving DecidableEq, Repr

/-- What the model declines to give a meaning to. -/
inductive Refusal where
  /-- An arm of `exec` that has no meaning yet; no arm is left so. Safe: the run stops. -/
  | notModelled (mnemonic : String)
  /-- A host write that would make the stack deeper than a finite `STACK_DEPTH`, which R173 leaves outside the host's
  moves; raised by `hostWrite` only, never by a step and never with the default. DESIGN CHOICE (log entry 11). Safe: the
  operation has no effect. -/
  | hostStackTooDeep
  deriving DecidableEq, Repr

/-- Every pixel unlit (R17, R140). -/
def Display.blank : Display := Vector.replicate 32 (Vector.replicate 64 false)

/-- The state after reset, every element at the value R22 states. -/
def State.reset : State where
  mem := []
  v := Vector.replicate 16 0x00
  i := 0x0000
  pc := Config.progBase
  stack := []
  dt := 0x00
  st := 0x00
  disp := Display.blank
  du := false
  opc := 0x0000

end Sys2Proof.Machine
end

