-- ==== Sys2Proof/Machine/Ops.lean ====
section
/-! DEFINITION. The named operations over memory, registers, stack, display and timers, the fetch, and the delivery of
a fault. Every instruction and every host operation is written with them. -/

namespace Sys2Proof.Machine

/-- What an operation of the block answers. -/
abbrev Result := Host.Outcome State Fault Refusal

/-! ### Memory (20_memory) -/

/-- One byte; an unlisted address reads as 0x00 (R20, R22). Reads change nothing (R47). -/
def Memory.get : Memory → Nat → Byte
  | [], _ => 0x00
  | (b, v) :: m, a => if a = b then v else Memory.get m a

/-- Store one byte, keeping the canonical form: rising addresses, no listed 0x00. -/
def Memory.set : Memory → Nat → Byte → Memory
  | [], a, v => if v = 0x00 then [] else [(a, v)]
  | (b, w) :: m, a, v =>
    if a < b then (if v = 0x00 then (b, w) :: m else (a, v) :: (b, w) :: m)
    else if a = b then (if v = 0x00 then m else (a, v) :: m)
    else (b, w) :: Memory.set m a v

/-- Store bytes at consecutive addresses, the first at `base` (R171, R172). -/
def Memory.setBytes : Memory → Nat → List Byte → Memory
  | m, _, [] => m
  | m, base, v :: vs => Memory.setBytes (Memory.set m base v) (base + 1) vs

/-- The canonical form above address `lo`: addresses rise strictly, exist (R40), and list no 0x00. -/
def Memory.wfFrom : Nat → Memory → Bool
  | _, [] => true
  | lo, (a, v) :: m => decide (lo ≤ a) && decide (a < Config.memSize) && v != 0x00 && Memory.wfFrom (a + 1) m

/-- The canonical form of memory: equal memories are equal lists. -/
def Memory.wf (m : Memory) : Bool := Memory.wfFrom 0 m

/-- The addresses `a` to `a + n - 1` all exist, `a + n - 1 <= 4095`; the sum does not wrap (R40, R45, R46). -/
def inMemory (a n : Nat) : Bool := decide (a + n ≤ Config.memSize)

/-- `MemRead(a, 1)` (00_scope section 4). -/
def State.memRead1 (s : State) (a : Nat) : Byte := s.mem.get a

/-- `MemRead(a, 2)`: two bytes, big-endian (R43). -/
def State.memRead2 (s : State) (a : Nat) : Word := wordOfBytes (s.mem.get a) (s.mem.get (a + 1))

/-- Store one byte; only the host does so (R42, R173). -/
def State.memWrite1 (s : State) (a : Nat) (b : Byte) : State := { s with mem := s.mem.set a b }

/-- Store consecutive bytes; only the host does so (R42). -/
def State.memWriteBytes (s : State) (base : Nat) (bs : List Byte) : State := { s with mem := s.mem.setBytes base bs }

/-! ### Registers (10_state sections 2 and 3) -/

/-- `V[x]` (R11). -/
def State.readV (s : State) (x : Reg) : Byte := s.v[x]

/-- `V[x] <- b` (R11). No register is hard-wired. -/
def State.writeV (s : State) (x : Reg) (b : Byte) : State := { s with v := s.v.set x b }

/-- `I <- w` (R13). -/
def State.setI (s : State) (w : Word) : State := { s with i := w }

/-- `PC <- w`: any value, odd or even (R14, R44). -/
def State.setPc (s : State) (w : Word) : State := { s with pc := w }

/-- `PC <- PC + 2`, modulo 65536 (R83, R14, decision D22). -/
def State.advancePc (s : State) : State := { s with pc := s.pc + 2 }

/-! ### Call stack (R15) -/

/-- `push(stack, w)`. -/
def State.push (s : State) (w : Word) : State := { s with stack := w :: s.stack }

/-- The stack has reached a finite `STACK_DEPTH`; never when it is unbounded (R15, R195). Deeper than the limit counts as
full: DESIGN CHOICE for states no operation reaches (log entry 5), safe. -/
def State.stackFull (depthLimit : Option Nat) (s : State) : Bool :=
  match depthLimit with
  | none => false
  | some d => decide (d ≤ s.stack.length)

/-! ### Display (R17) -/

/-- `disp[y][x]`; a row or column beyond the edge holds no pixel and reads as unlit. DESIGN CHOICE for places nothing
names (log entry 3), safe. -/
def Display.pixel (d : Display) (y x : Nat) : Bool :=
  if h : y < Config.displayH ∧ x < Config.displayW then (d[y]'h.1)[x]'h.2 else false

/-- `disp[y][x] <- disp[y][x] XOR 1`; beyond the edge nothing changes (R143, R145). -/
def Display.flip (d : Display) (y x : Nat) : Display :=
  if h : y < Config.displayH ∧ x < Config.displayW then
    d.set y ((d[y]'h.1).set x (!(d[y]'h.1)[x]'h.2) h.2) h.1
  else d

/-- The pixel at a flat index, `64*y + x` for pixel `(x, y)` (R17, decision D18). -/
def Display.flat (d : Display) (k : Nat) : Bool := d.pixel (k / 64) (k % 64)

/-- Replace the display. -/
def State.setDisp (s : State) (d : Display) : State := { s with disp := d }

/-- `DU <- 1` (R18). -/
def State.markUpdated (s : State) : State := { s with du := true }

/-! ### Timers (44_timer_unit) -/

/-- One tick of one timer: down by one, floored at zero (R160). -/
def tick (t : Byte) : Byte := if t = 0 then 0 else t - 1

/-- The tick at the end of a completed step (R160, R87). -/
def State.tickTimers (s : State) : State := { s with dt := tick s.dt, st := tick s.st }

/-! ### The common part of a step (40_step_cycle R81) -/

/-- What the fetch and decode of a step give. -/
inductive Fetched where
  /-- The word at `PC` and the instruction it is. -/
  | insn (w : Word) (i : Instr)
  /-- The step faults before it executes anything. -/
  | fault (f : Fault)
  deriving DecidableEq, Repr

/-- Lines 0, 2, 4 and 5 of R81: the bound on all 16 bits of `PC` first (R80, R45), then the two bytes (R82), then the
decoder (R85). -/
def State.fetch (strict : Bool) (s : State) : Fetched :=
  if inMemory s.pc.toNat 2 then
    match decodeWord strict (s.memRead2 s.pc.toNat) with
    | .instr i => .insn (s.memRead2 s.pc.toNat) i
    | .unknownOpcode w => .fault (.unknownOpcode w)
  else .fault (.outOfBounds s.pc)

/-- Lines 1 to 3 of R81: `DU' <- 0` (R88), `OPC' <- opcode` (R89), `PC' <- PC + 2` (R83). DEDUCED, that this is the
state an instruction executes on (log entry 4), safe. -/
def State.beginStep (s : State) (w : Word) : State := { s.advancePc with du := false, opc := w }

/-- Lines 6 and 7 of R81: a completed step ticks the timers; a fault commits nothing (R86). -/
def completeStep : Result → Result
  | .next t => .next t.tickTimers
  | .fault f => .fault f
  | .refused r => .refused r

/-! ### Faults (60_exceptions) -/

/-- `raise f`: what other machines call trap entry. The operation ends with the fault and nothing is saved, changed or
vectored (R86, R197). There is no return from a fault (R198). -/
def raise (f : Fault) : Result := .fault f

/-- The state the block is in after an operation: the next state, or the state before it when it faults (R86, R178). -/
def State.after (s : State) : Result → State
  | .next t => t
  | .fault _ => s
  | .refused _ => s

/-- The numeric cause of a fault (R190, decision D8). -/
def Fault.code : Fault → Nat
  | .invalidArgument => 1
  | .outOfBounds _ => 2
  | .emptyStack => 3
  | .unknownOpcode _ => 4
  | .stackOverflow => 5

/-- The 16-bit `info` of a fault (R190, decision D9). -/
def Fault.info : Fault → Word
  | .invalidArgument => 0x0000
  | .outOfBounds w => w
  | .emptyStack => 0x0000
  | .unknownOpcode w => w
  | .stackOverflow => 0x0000

end Sys2Proof.Machine
end

