-- ==== Sys2Proof/Machine/Operands.lean ====
section
/-! DEFINITION. The operand forms of 30_encoding rule R62 and the sprite origin of rule R142. -/

namespace Sys2Proof.Machine

/-- `zext_16(nnn)`: a jump or call target, or the new `I` (R62). -/
def zext16 (nnn : Imm12) : Word := nnn.setWidth 16

/-- The sprite origin column, `V[x] mod 64` (R142). -/
def State.xOrigin (s : State) (x : Reg) : Nat := (s.readV x).toNat % Config.displayW

/-- The sprite origin row, `V[y] mod 32` (R142). -/
def State.yOrigin (s : State) (y : Reg) : Nat := (s.readV y).toNat % Config.displayH

/-- All `rows` sprite rows `mem[I + row]` exist; no row is read when there are none (R46). -/
def State.spriteInMemory (s : State) (rows : Nat) : Bool := rows == 0 || inMemory s.i.toNat rows

end Sys2Proof.Machine
end

