-- ==== Sys2Proof/Machine/Flags.lean ====
section
/-! DEFINITION. The results and flags of the arithmetic instructions (42_register_alu), computed exactly and then
narrowed (R133), and the one way a flag reaches VF (R132). -/

namespace Sys2Proof.Machine

/-- A flag as VF holds it: the whole byte 0x00 or 0x01 (R12, R133). -/
def flagByte (f : Bool) : Byte := if f then 0x01 else 0x00

/-- `(a + b) mod 256` (R133). -/
def sum8 (a b : Byte) : Byte := BitVec.ofNat 8 (a.toNat + b.toNat)

/-- The carry out of the 8-bit addition: the unreduced sum exceeds 255 (R126). -/
def carryOut (a b : Byte) : Bool := decide (255 < a.toNat + b.toNat)

/-- `(a - b) mod 256`, that is `a - b` or `a - b + 256` (R127, R133). -/
def diff8 (a b : Byte) : Byte := BitVec.ofNat 8 (a.toNat + 256 - b.toNat)

/-- Not borrow of `a - b`: `a >= b`, equality included (R127, R133). -/
def noBorrow (a b : Byte) : Bool := decide (b.toNat ≤ a.toNat)

/-- `a >> 1`, a logical shift (R128). -/
def shiftRight1 (a : Byte) : Byte := BitVec.ofNat 8 (a.toNat / 2)

/-- Bit 0 of `a`, the bit a right shift drops (R128). -/
def lowBit (a : Byte) : Bool := a.getLsbD 0

/-- `(a << 1) mod 256` (R130). -/
def shiftLeft1 (a : Byte) : Byte := BitVec.ofNat 8 (a.toNat * 2)

/-- Bit 7 of `a`, the bit a left shift drops (R130). -/
def highBit (a : Byte) : Bool := a.getLsbD 7

/-- Write the result to `V[x]`, then the flag to VF, so that at `x = 15` the flag stays (R132). -/
def State.writeResultFlag (s : State) (x : Reg) (result : Byte) (flag : Bool) : State :=
  (s.writeV x result).writeV vf (flagByte flag)

end Sys2Proof.Machine
end

