-- ==== Sys2Proof/Machine/Alu.lean ====
section
/-! DEFINITION. The register, arithmetic and logic instructions (42_register_alu). All operands are read from the
state on entry, before anything is written (R132). -/

namespace Sys2Proof.Machine

/-- `6XNN` (R120). -/
def execLdImm (x : Reg) (nn : Byte) (s : State) : Result := .next (s.writeV x nn)

/-- `7XNN` (R121): wraps modulo 256, VF is not written as a flag. -/
def execAddImm (x : Reg) (nn : Byte) (s : State) : Result := .next (s.writeV x (sum8 (s.readV x) nn))

/-- `8XY0` (R122). -/
def execLdReg (x y : Reg) (s : State) : Result := .next (s.writeV x (s.readV y))

/-- `8XY1` (R123); VF is not cleared. -/
def execOrReg (x y : Reg) (s : State) : Result := .next (s.writeV x (s.readV x ||| s.readV y))

/-- `8XY2` (R124); VF is not cleared. -/
def execAndReg (x y : Reg) (s : State) : Result := .next (s.writeV x (s.readV x &&& s.readV y))

/-- `8XY3` (R125); VF is not cleared. -/
def execXorReg (x y : Reg) (s : State) : Result := .next (s.writeV x (s.readV x ^^^ s.readV y))

/-- `8XY4` (R126). -/
def execAddReg (x y : Reg) (s : State) : Result :=
  .next (s.writeResultFlag x (sum8 (s.readV x) (s.readV y)) (carryOut (s.readV x) (s.readV y)))

/-- `8XY5` (R127). -/
def execSub (x y : Reg) (s : State) : Result :=
  .next (s.writeResultFlag x (diff8 (s.readV x) (s.readV y)) (noBorrow (s.readV x) (s.readV y)))

/-- `8XY7` (R129). -/
def execSubn (x y : Reg) (s : State) : Result :=
  .next (s.writeResultFlag x (diff8 (s.readV y) (s.readV x)) (noBorrow (s.readV y) (s.readV x)))

/-- `8XY6` (R128): on `V[x]` alone; `y` is not used (R68). -/
def execShr (x _y : Reg) (s : State) : Result :=
  .next (s.writeResultFlag x (shiftRight1 (s.readV x)) (lowBit (s.readV x)))

/-- `8XYE` (R130): on `V[x]` alone; `y` is not used (R68). -/
def execShl (x _y : Reg) (s : State) : Result :=
  .next (s.writeResultFlag x (shiftLeft1 (s.readV x)) (highBit (s.readV x)))

/-- `ANNN` (R131). -/
def execLdI (nnn : Imm12) (s : State) : Result := .next (s.setI (zext16 nnn))

end Sys2Proof.Machine
end

