-- ==== Sys2Proof/Machine/Control.lean ====
section
/-! DEFINITION. The control-flow instructions (41_control_flow). On entry `PC` is the instruction's address plus 2. -/

namespace Sys2Proof.Machine

/-- Skip the next instruction when `c` holds: `PC <- PC + 2` (41_control_flow section 2). -/
def State.skipIf (s : State) (c : Bool) : State := if c then s.advancePc else s

/-- `2NNN` on a machine whose `STACK_DEPTH` is `depthLimit` (R102, R195): fault at full depth, else push the advanced
`PC` and jump. -/
def callWith (depthLimit : Option Nat) (nnn : Imm12) (s : State) : Result :=
  if s.stackFull depthLimit then raise .stackOverflow else .next ((s.push s.pc).setPc (zext16 nnn))

/-- `00EE` (R100): pop an address, jump there with no check of it; `EmptyStack` when there is none. -/
def execRet (s : State) : Result :=
  match s.stack with
  | [] => raise .emptyStack
  | a :: rest => .next { s with pc := a, stack := rest }

/-- `1NNN` (R101): the target replaces the advanced `PC`. -/
def execJp (nnn : Imm12) (s : State) : Result := .next (s.setPc (zext16 nnn))

/-- `2NNN` (R102) at the machine's `STACK_DEPTH`. -/
def execCall (nnn : Imm12) (s : State) : Result := callWith Config.machine.stackDepth nnn s

/-- `3XNN` (R103). -/
def execSeImm (x : Reg) (nn : Byte) (s : State) : Result := .next (s.skipIf (s.readV x == nn))

/-- `4XNN` (R104). -/
def execSneImm (x : Reg) (nn : Byte) (s : State) : Result := .next (s.skipIf (s.readV x != nn))

/-- `5XYn` (R105); the low nibble is not examined (R66). -/
def execSeReg (x y : Reg) (_n : Nibble) (s : State) : Result := .next (s.skipIf (s.readV x == s.readV y))

/-- `9XYn` (R106); the low nibble is not examined (R66). -/
def execSneReg (x y : Reg) (_n : Nibble) (s : State) : Result := .next (s.skipIf (s.readV x != s.readV y))

end Sys2Proof.Machine
end

