-- ==== Sys2Proof/Machine/Sprite.lean ====
section
/-! DEFINITION. The display instructions and the sprite renderer (43_display), loop for loop as rule R141 writes it. -/

namespace Sys2Proof.Machine

/-- What the renderer carries from pixel to pixel: the display so far and the collision so far (R141). -/
structure Canvas where
  disp : Display
  collision : Bool
  deriving DecidableEq, Repr

/-- One sprite bit at column `px` and row `py`: a clipped bit and a 0 bit change nothing (R143, R144); a 1 bit over a
lit pixel is a collision, and flips the pixel (R144, R145). -/
def Canvas.drawBit (c : Canvas) (py px : Nat) (bit : Bool) : Canvas :=
  if Config.displayW ≤ px then c
  else if bit then { disp := c.disp.flip py px, collision := c.collision || c.disp.pixel py px }
  else c

/-- One sprite row at row `py`, its last `left` bits: column `xo + k` takes bit `7 - k`, most significant first
(R141, R147). -/
def Canvas.drawBits (b : Byte) (py xo : Nat) : Nat → Canvas → Canvas
  | 0, c => c
  | left + 1, c => Canvas.drawBits b py xo left (c.drawBit py (xo + (7 - left)) (b.getLsbD left))

/-- One whole sprite row of 8 pixels (R147). -/
def Canvas.drawRow (c : Canvas) (b : Byte) (py xo : Nat) : Canvas := Canvas.drawBits b py xo 8 c

/-- The last `left` sprite rows, from row `row` on, top first; drawing stops at the bottom edge (R141, R143). `base` is
`I`, and row `row` is the byte `mem[base + row]` (R147). -/
def Canvas.drawRows (m : Memory) (base yo xo : Nat) : Nat → Nat → Canvas → Canvas
  | 0, _, c => c
  | left + 1, row, c =>
    if Config.displayH ≤ yo + row then c
    else Canvas.drawRows m base yo xo left (row + 1) (c.drawRow (m.get (base + row)) (yo + row) xo)

/-- The sprite of `rows` rows at `I` drawn at the origin of registers `x` and `y`, from no collision (R141, R142). -/
def State.drawSprite (s : State) (x y : Reg) (rows : Nat) : Canvas :=
  Canvas.drawRows s.mem s.i.toNat (s.yOrigin y) (s.xOrigin x) rows 0 { disp := s.disp, collision := false }

/-- `00E0` (R140): every pixel unlit, `DU` set, VF not written. -/
def execCls (s : State) : Result := .next (s.setDisp Display.blank).markUpdated

/-- `DXYN` (R141): the bound on all rows first (R46), then the rows, then VF, then `DU` (R146). -/
def execDrw (x y : Reg) (n : Nibble) (s : State) : Result :=
  if s.spriteInMemory n.toNat then
    .next ((((s.setDisp (s.drawSprite x y n.toNat).disp)).writeV vf
      (flagByte (s.drawSprite x y n.toNat).collision)).markUpdated)
  else raise (.outOfBounds s.i)

end Sys2Proof.Machine
end

