-- ==== Sys2Proof/Machine/Step.lean ====
section
/-! DEFINITION. `Step` (40_step_cycle rules R90 and R81), and how the host places a word where it is fetched. -/

namespace Sys2Proof.Machine

/-- One step: fetch and decode, then execute on the state with `DU`, `OPC` and `PC` begun, then tick (R81). -/
def step (s : State) : Host.Outcome State Fault Refusal :=
  match s.fetch Config.machine.strictLowNibble59 with
  | .insn w i => completeStep (exec i (s.beginStep w))
  | .fault f => raise f

/-- The state with the instruction word of `nbits`, `w` at `PC` and `PC + 1`, high byte first (R43), where the next step
fetches. `PC` and all else stay as they are. Where `PC > 4094` no fetch exists (R45), and memory stays too:
DESIGN CHOICE (log entry 13), safe. -/
def State.withFetchWord (s : State) (nbits w : Nat) : State :=
  if inMemory s.pc.toNat 2 then
    s.memWriteBytes s.pc.toNat [highByte (tableWord nbits w), lowByte (tableWord nbits w)]
  else s

end Sys2Proof.Machine
end

