-- ==== Sys2Proof/Machine/HostOps.lean ====
section
/-! DEFINITION. The block's interface to the host (45_host_interface): the operations of R170, each one atomic, and the
step of a machine of any parameters (00_scope R5). -/

namespace Sys2Proof.Machine

/-! ### A machine of any parameters (R5) -/

/-- `exec` on a machine of parameters `cfg`: `STACK_DEPTH` matters to `2NNN` alone (R102). -/
def execWith (cfg : Config) (i : Instr) (s : State) : Result :=
  match i with
  | .call nnn => callWith cfg.stackDepth nnn s
  | other => exec other s

/-- `Step` on a machine of parameters `cfg` (R90): the low nibble check is the decoder's (R66). -/
def stepWith (cfg : Config) (s : State) : Result :=
  match s.fetch cfg.strictLowNibble59 with
  | .insn w i => completeStep (execWith cfg i (s.beginStep w))
  | .fault f => raise f

/-! ### Loading -/

/-- `LoadFont` (R171): exactly 80 bytes, to 0x050 and up; absent data is the empty list (decision D21). -/
def loadFont (font : List Byte) (s : State) : Result :=
  if font.length = Config.fontLen then .next (s.memWriteBytes Config.fontBase font) else raise .invalidArgument

/-- `Load` (R172): at most 3584 bytes, to 0x200 and up, and `PC <- 0x200`; nothing else is reset. -/
def load (rom : List Byte) (s : State) : Result :=
  if rom.length ≤ Config.maxRomLen then
    .next ((s.memWriteBytes Config.progBase.toNat rom).setPc Config.progBase)
  else raise (.outOfBounds Config.progBase)

/-! ### Host access (R173) -/

/-- What the host can read: every element (R173). Indices name existing registers, bytes and pixels (R53). -/
inductive HostRead where
  | v (x : Reg)
  | mem (a : Imm12)
  | i
  | pc
  | stack
  | dt
  | st
  | pixel (x : Fin 64) (y : Fin 32)
  | du
  | opc
  deriving DecidableEq, Repr

/-- What the host can replace: `V`, memory bytes, `PC`, `I`, the timers and the whole stack (its top first); not the
display, `DU` or `OPC` (R173). -/
inductive HostWrite where
  | v (x : Reg) (b : Byte)
  | mem (a : Imm12) (b : Byte)
  | i (w : Word)
  | pc (w : Word)
  | stack (ws : List Word)
  | dt (b : Byte)
  | st (b : Byte)
  deriving DecidableEq, Repr

/-- A value the host reads. -/
inductive HostValue where
  | byte (b : Byte)
  | word (w : Word)
  | words (ws : List Word)
  | bit (b : Bool)
  deriving DecidableEq, Repr

/-- The value read; a read changes nothing (R173, R47). -/
def hostRead (t : HostRead) (s : State) : HostValue :=
  match t with
  | .v x => .byte (s.readV x)
  | .mem a => .byte (s.memRead1 a.toNat)
  | .i => .word s.i
  | .pc => .word s.pc
  | .stack => .words s.stack
  | .dt => .byte s.dt
  | .st => .byte s.st
  | .pixel x y => .bit (s.disp.pixel y.val x.val)
  | .du => .bit s.du
  | .opc => .word s.opc

/-- The sequence is within the `STACK_DEPTH` of the machine (R173). -/
def stackAllowed (cfg : Config) (ws : List Word) : Bool :=
  match cfg.stackDepth with
  | none => true
  | some d => decide (ws.length ≤ d)

/-- A write replaces the named element and has no other effect (R173). -/
def hostWrite (cfg : Config) (t : HostWrite) (s : State) : Result :=
  match t with
  | .v x b => .next (s.writeV x b)
  | .mem a b => .next (s.memWrite1 a.toNat b)
  | .i w => .next (s.setI w)
  | .pc w => .next (s.setPc w)
  | .stack ws => if stackAllowed cfg ws then .next { s with stack := ws } else .refused .hostStackTooDeep
  | .dt b => .next { s with dt := b }
  | .st b => .next { s with st := b }

/-! ### The operations (R170) -/

/-- The operations the block offers to the host, exactly (R170). -/
inductive HostOp where
  /-- reset, the source's Construct (R220). -/
  | reset
  /-- `LoadFont` (R171). -/
  | loadFont (font : List Byte)
  /-- `Load` (R172). -/
  | load (rom : List Byte)
  /-- `Step` (R174). -/
  | step
  /-- Read one element (R173). -/
  | read (t : HostRead)
  /-- Replace one element (R173). -/
  | write (t : HostWrite)
  deriving DecidableEq, Repr

/-- What the host gets back: `Ok`, with the value of a read, or the fault (R175). -/
inductive HostReply where
  | ok
  | value (v : HostValue)
  | fault (f : Fault)
  | refused (r : Refusal)
  deriving DecidableEq, Repr

/-- The outcome of an operation before its reply: a read leaves the state as it is (R173). -/
def operate (cfg : Config) (op : HostOp) (s : State) : Result :=
  match op with
  | .reset => .next State.reset
  | .loadFont font => loadFont font s
  | .load rom => load rom s
  | .step => stepWith cfg s
  | .read _ => .next s
  | .write t => hostWrite cfg t s

/-- The reply to an operation (R175). -/
def reply (op : HostOp) (s : State) : Result → HostReply
  | .fault f => .fault f
  | .refused r => .refused r
  | .next _ =>
    match op with
    | .read t => .value (hostRead t s)
    | .reset => .ok
    | .loadFont _ => .ok
    | .load _ => .ok
    | .step => .ok
    | .write _ => .ok

/-- One operation on a machine of parameters `cfg`: the state it leaves, unchanged by a fault (R86, R178), and the
reply. The block accepts the next operation whatever the reply (R197). -/
def performWith (cfg : Config) (op : HostOp) (s : State) : State × HostReply :=
  (s.after (operate cfg op s), reply op s (operate cfg op s))

/-- One operation on the machine of this model. -/
def perform (op : HostOp) (s : State) : State × HostReply := performWith Config.machine op s

/-- A host's whole session: operations one at a time, each complete before the next begins (R170). -/
def performAll (ops : List HostOp) (s : State) : State := ops.foldl (fun t op => (perform op t).1) s

/-- The numeric cause of a reply, 0 for a completed operation (R190); a refusal has no number in the spec. -/
def HostReply.code : HostReply → Option Nat
  | .ok => some 0
  | .value _ => some 0
  | .fault f => some f.code
  | .refused _ => none

end Sys2Proof.Machine
end

