-- ==== Sys2Proof/Safety.lean ====
section
/-! DEFINITION. The terms claims are stated in: the state elements and what an instruction may write (10_state R10 and
R24), the word a step fetches, the fault a step must give (60_exceptions R196), the sprite as a picture (43_display),
and the invariant of a machine whose host writes nothing out of range. -/

namespace Sys2Proof.Machine

/-! ### Frames (R10, R24) -/

/-- The ten state elements of R10. -/
inductive Elem where
  | mem
  | v
  | i
  | pc
  | stack
  | dt
  | st
  | disp
  | du
  | opc
  deriving DecidableEq, Repr

/-- The element has the same value in both states. Memory is also compared byte by byte, as it is read. -/
def Elem.same (s t : State) : Elem → Prop
  | .mem => t.mem = s.mem ∧ ∀ a, t.memRead1 a = s.memRead1 a
  | .v => ∀ r, t.readV r = s.readV r
  | .i => t.i = s.i
  | .pc => t.pc = s.pc
  | .stack => t.stack = s.stack
  | .dt => t.dt = s.dt
  | .st => t.st = s.st
  | .disp => t.disp = s.disp
  | .du => t.du = s.du
  | .opc => t.opc = s.opc

/-- Going from `s` to `t`, only the elements of `written` may differ. -/
def Frame (written : List Elem) (s t : State) : Prop := ∀ e, e ∉ written → e.same s t

/-- The elements the execute part of an instruction may write: the `w` entries of its row in R24. -/
def instrWrites : Instr → List Elem
  | .cls => [.disp, .du]
  | .ret => [.pc, .stack]
  | .jp _ => [.pc]
  | .call _ => [.pc, .stack]
  | .seImm _ _ => [.pc]
  | .sneImm _ _ => [.pc]
  | .seReg _ _ _ => [.pc]
  | .sneReg _ _ _ => [.pc]
  | .ldImm _ _ => [.v]
  | .addImm _ _ => [.v]
  | .ldReg _ _ => [.v]
  | .orReg _ _ => [.v]
  | .andReg _ _ => [.v]
  | .xorReg _ _ => [.v]
  | .addReg _ _ => [.v]
  | .sub _ _ => [.v]
  | .subn _ _ => [.v]
  | .shr _ _ => [.v]
  | .shl _ _ => [.v]
  | .ldI _ => [.i]
  | .drw _ _ _ => [.v, .disp, .du]

/-- The general registers an instruction may write: the `V[x]` and `VF (as flag)` columns of R24. -/
def instrWritesRegs : Instr → List Reg
  | .cls => []
  | .ret => []
  | .jp _ => []
  | .call _ => []
  | .seImm _ _ => []
  | .sneImm _ _ => []
  | .seReg _ _ _ => []
  | .sneReg _ _ _ => []
  | .ldImm x _ => [x]
  | .addImm x _ => [x]
  | .ldReg x _ => [x]
  | .orReg x _ => [x]
  | .andReg x _ => [x]
  | .xorReg x _ => [x]
  | .addReg x _ => [x, 15]
  | .sub x _ => [x, 15]
  | .subn x _ => [x, 15]
  | .shr x _ => [x, 15]
  | .shl x _ => [x, 15]
  | .ldI _ => []
  | .drw _ _ _ => [15]

/-- The elements the common part of a step writes: the `step` row of R24. -/
def stepWrites : List Elem := [.pc, .dt, .st, .du, .opc]

/-! ### Fetching and faulting -/

/-- A step at `s` fetches the word `w`: `PC <= 4094` and `w = mem[PC]*256 + mem[PC+1]` (R80, R82). -/
abbrev Fetches (s : State) (w : Word) : Prop :=
  s.pc.toNat ≤ 4094 ∧ w.toNat = (s.memRead1 s.pc.toNat).toNat * 256 + (s.memRead1 (s.pc.toNat + 1)).toNat

/-- The one check of its own that an instruction has (R196), on a machine of parameters `cfg`. -/
def instrFault (cfg : Config) (s : State) : Instr → Option Fault
  | .ret => if s.stack = [] then some .emptyStack else none
  | .call _ =>
    match cfg.stackDepth with
    | none => none
    | some d => if d ≤ s.stack.length then some .stackOverflow else none
  | .drw _ _ n => if 1 ≤ n.toNat ∧ 4095 < s.i.toNat + n.toNat - 1 then some (.outOfBounds s.i) else none
  | .cls => none
  | .jp _ => none
  | .seImm _ _ => none
  | .sneImm _ _ => none
  | .seReg _ _ _ => none
  | .sneReg _ _ _ => none
  | .ldImm _ _ => none
  | .addImm _ _ => none
  | .ldReg _ _ => none
  | .orReg _ _ => none
  | .andReg _ _ => none
  | .xorReg _ _ => none
  | .addReg _ _ => none
  | .sub _ _ => none
  | .subn _ _ => none
  | .shr _ _ => none
  | .shl _ _ => none
  | .ldI _ => none

/-- The fault a step must give, by the fixed order of R196: fetch bound, decode, then the instruction's own check. -/
def stepFault (cfg : Config) (s : State) : Option Fault :=
  if 4094 < s.pc.toNat then some (.outOfBounds s.pc)
  else
    match decodeWord cfg.strictLowNibble59 (s.memRead2 s.pc.toNat) with
    | .unknownOpcode w => some (.unknownOpcode w)
    | .instr i => instrFault cfg s i

/-- Safe: the next step completes. -/
def State.safe (s : State) : Bool := stepFault Config.machine s == none

/-! ### The sprite as a picture -/

/-- The sprite of `n` rows that `DXYN` draws with registers `x` and `y` has a 1 bit at row `py`, column `px`: row `row`
is the byte `mem[I + row]`, its bit `7 - k` lands at column `xo + k`, and the origin wraps (R141, R142, R147). -/
def spriteBit (s : State) (x y : Reg) (n : Nat) (py px : Nat) : Bool :=
  let xo := (s.readV x).toNat % 64
  let yo := (s.readV y).toNat % 32
  decide (yo ≤ py) && decide (py < yo + n) && decide (xo ≤ px) && decide (px ≤ xo + 7) &&
    (s.memRead1 (s.i.toNat + (py - yo))).getLsbD (7 - (px - xo))

/-- Some unclipped 1 bit of the sprite lies over a lit pixel (R144). -/
def spriteCollides (s : State) (x y : Reg) (n : Nat) : Prop :=
  ∃ py px, py < 32 ∧ px < 64 ∧ spriteBit s x y n py px = true ∧ s.disp.pixel py px = true

/-! ### The invariant -/

/-- What every step keeps: memory is canonical, `I` is a value an instruction can give it (R13), `PC` is at most 4098
(R14), and every stack entry is an address a call can push (R102). -/
structure State.Inv (s : State) : Prop where
  memCanonical : s.mem.wf = true
  indexBound : s.i.toNat ≤ 0x0FFF
  pcBound : s.pc.toNat ≤ 4098
  stackBound : ∀ a ∈ s.stack, a.toNat ≤ 4096

end Sys2Proof.Machine
end

