-- ==== Sys2Proof/Certificates/Slice0/Obligations.lean ====
section
/-! DEFINITION. The statements for the provers, each from a numbered rule of the spec. On the execute part of a step
(`exec`), `PC` on entry is the instruction's own address plus 2 and `DU` is 0 (41_control_flow, introduction). -/

open Sys2Proof Sys2Proof.Machine

/-! ### Encoding (30_encoding) -/

/-- R61, R63, R70: the word of a well-formed instruction decodes to that instruction, with every operand at every
value its field admits, for both values of the parameter. That a term has an operand for the fields the machine ignores
(`y` of 8XY6 and 8XYE, `n` of 5XYn and 9XYn) is the model's DESIGN CHOICE (log entry 7). -/
def Obligations.DecodeOfEncodeIsInstruction : Prop :=
  ∀ (strict : Bool) (i : Instr), i.wellFormed strict = true → decodeWord strict (encode i) = .instr i

/-- R61, R64, R70: a word that decodes to an instruction term is the word of that term, and no bit of a word is dropped.
That no two words give one term holds by the model's DESIGN CHOICE (log entry 7), in which a term keeps the ignored `y`
of 8XY6 and 8XYE and `n` of 5XYn and 9XYn; in the spec (R66, R68) words that differ only there are one instruction. -/
def Obligations.EncodeOfDecodeIsWord : Prop :=
  ∀ (strict : Bool) (w : Word) (i : Instr),
    decodeWord strict w = .instr i → encode i = w ∧ i.wellFormed strict = true

/-- R63: 21 rows; a word is an instruction exactly when it matches that instruction's row, and no other row matches
it; a word that is no instruction matches no row. -/
def Obligations.WordMatchesOnlyItsTableRow : Prop :=
  opcodeTable.length = 21 ∧
  ∀ w : Word,
    (∀ i, decodeWord false w = .instr i → ∀ r ∈ opcodeTable, r.accepts w = true ↔ r = i.row) ∧
    (∀ i, decodeWord false w = .instr i → i.row ∈ opcodeTable) ∧
    ((∀ i, decodeWord false w ≠ .instr i) → ∀ r ∈ opcodeTable, r.accepts w = false)

/-- R65, the spec's own decisions D3 and D19: in the 0x0 family only 0x00E0 and 0x00EE are instructions; every other
word, 0x0000 among them, is unknown and its step faults with the word. -/
def Obligations.ZeroFamilyMatchedOnWholeWord : Prop :=
  ∀ (strict : Bool) (w : Word), w.toNat ≤ 0x0FFF →
    (decodeWord strict w = .instr .cls ↔ w = 0x00E0) ∧
    (decodeWord strict w = .instr .ret ↔ w = 0x00EE) ∧
    (w ≠ 0x00E0 → w ≠ 0x00EE →
      decodeWord strict w = .unknownOpcode w ∧ ∀ s, Fetches s w → step s = .fault (.unknownOpcode w))

/-- R66, the spec's own decision D4 (log entry 6): every word 0x5000..0x5FFF executes as `5XY0` and every word
0x9000..0x9FFF as `9XY0`; the canonical word, with low nibble 0, is the instruction for either value of the parameter,
and with the strict parameter any other low nibble makes the word unknown. -/
def Obligations.LowNibbleOfRegisterSkipsIgnored : Prop :=
  ∀ (x y : Reg) (n : Nibble),
    let w5 := BitVec.ofNat 16 (0x5000 + x.val * 256 + y.val * 16 + n.toNat)
    let w9 := BitVec.ofNat 16 (0x9000 + x.val * 256 + y.val * 16 + n.toNat)
    (∃ i, decodeWord false w5 = .instr i ∧ ∀ s, exec i s = exec (.seReg x y 0) s) ∧
    (∃ i, decodeWord false w9 = .instr i ∧ ∀ s, exec i s = exec (.sneReg x y 0) s) ∧
    (n = 0 → decodeWord true w5 = .instr (.seReg x y 0) ∧ decodeWord true w9 = .instr (.sneReg x y 0)) ∧
    (n ≠ 0 → decodeWord true w5 = .unknownOpcode w5 ∧ decodeWord true w9 = .unknownOpcode w9)

/-- R67: the illegal words are exactly those of its table, and the step that fetches one faults with the word and
leaves the state as it was. -/
def Obligations.IllegalWordsFault : Prop :=
  ∀ w : Word,
    let op := w.toNat / 4096
    let n := w.toNat % 16
    ((∀ i, decodeWord false w ≠ .instr i) ↔
      (op = 0x0 ∧ w ≠ 0x00E0 ∧ w ≠ 0x00EE) ∨ (op = 0x8 ∧ n ∈ [0x8, 0x9, 0xA, 0xB, 0xC, 0xD, 0xF]) ∨
        op ∈ [0xB, 0xC, 0xE, 0xF]) ∧
    ((∀ i, decodeWord false w ≠ .instr i) → ∀ s, Fetches s w →
      perform .step s = (s, .fault (.unknownOpcode w)))

/-- Sanity: words written out from the encodings of R63 and 95_test_vectors section 8. -/
def Obligations.WrittenOutWordsDecode : Prop :=
  decodeWord false 0x00E0 = .instr .cls ∧
  decodeWord false 0x220E = .instr (.call 0x20E) ∧
  decodeWord false 0x4A42 = .instr (.sneImm 10 0x42) ∧
  decodeWord false 0x61FF = .instr (.ldImm 1 0xFF) ∧
  decodeWord false 0x8014 = .instr (.addReg 0 1) ∧
  decodeWord false 0xA20C = .instr (.ldI 0x20C) ∧
  decodeWord false 0xD012 = .instr (.drw 0 1 2)

/-! ### The step (40_step_cycle, 60_exceptions) -/

/-- R81: when the word at `PC` decodes to `i`, the step is `exec i` on the state with `PC` advanced by 2, `DU` cleared
and `OPC` the word, and then each timer falls by one if it is not zero; a fault of `i` is the step's fault. -/
def Obligations.StepRunsDecodedInstruction : Prop :=
  ∀ (s : State) (w : Word) (i : Instr), Fetches s w → decodeWord false w = .instr i →
    step s =
      match exec i { s with pc := s.pc + 2, du := false, opc := w } with
      | .next t =>
        .next { t with dt := if t.dt = 0 then 0 else t.dt - 1, st := if t.st = 0 then 0 else t.st - 1 }
      | .fault f => .fault f
      | .refused r => .refused r

/-- R80, R45: a step at `PC > 4094`, all 16 bits compared and whatever bytes memory holds, raises `OutOfBounds(PC)`
and changes nothing; at any other `PC`, odd or even, the two bytes there are fetched and the next check is the
decoder's. -/
def Obligations.FetchBoundIs4094 : Prop :=
  (∀ s : State, 4094 < s.pc.toNat →
    step s = .fault (.outOfBounds s.pc) ∧ perform .step s = (s, .fault (.outOfBounds s.pc))) ∧
  (∀ s : State, s.pc.toNat ≤ 4094 → ∃ w, Fetches s w ∧
    (∀ w', decodeWord false w = .unknownOpcode w' → step s = .fault (.unknownOpcode w)) ∧
    ∀ i t, decodeWord false w = .instr i → exec i { s with pc := s.pc + 2, du := false, opc := w } = .next t →
      ∃ u, step s = .next u)

/-- R86, R178, the spec's own decision D2 (log entry 10): an operation that faults, a step among them, changes no
element of state, on a machine of any parameters. -/
def Obligations.FaultingOperationChangesNothing : Prop :=
  (∀ (cfg : Config) (op : HostOp) (s : State) (f : Fault),
    (performWith cfg op s).2 = .fault f → (performWith cfg op s).1 = s) ∧
  (∀ (s : State) (f : Fault), step s = .fault f → perform .step s = (s, .fault f))

/-- R198, derived in the spec from R86 and R90: a host that goes on requesting steps after a fault, changing nothing,
gets the same fault each time. -/
def Obligations.FaultRepeatsUntilHostActs : Prop :=
  ∀ (s : State) (f : Fault), step s = .fault f →
    ∀ k : Nat, perform .step (performAll (List.replicate k .step) s) = (s, .fault f)

/-- R88: after a completed step `DU` is 1 exactly when the executed instruction is `00E0` or `DXYN`. -/
def Obligations.DisplayUpdatedAfterClearOrDrawOnly : Prop :=
  ∀ (s t : State) (w : Word), Fetches s w → step s = .next t →
    (t.du = true ↔ w = 0x00E0 ∨ w.toNat / 4096 = 0xD)

/-- R89, R82: `OPC` receives the fetched word in every completed step; a faulting step leaves it. -/
def Obligations.CurrentOpcodeIsFetchedWord : Prop :=
  (∀ s t : State, step s = .next t → Fetches s t.opc) ∧
  (∀ (s : State) (f : Fault), (perform .step s).2 = .fault f → (perform .step s).1.opc = s.opc)

/-- R83: a completed step of an instruction that is no jump, call, return or skip leaves `PC` 2 higher, and a skip
leaves it 2 or 4 higher; the addition does not wrap. -/
def Obligations.PcAdvancesByTwo : Prop :=
  ∀ (s t : State) (w : Word), Fetches s w → step s = .next t →
    (w ≠ 0x00EE → w.toNat / 4096 ∉ [0x1, 0x2, 0x3, 0x4, 0x5, 0x9] → t.pc.toNat = s.pc.toNat + 2) ∧
    (w.toNat / 4096 ∈ [0x3, 0x4, 0x5, 0x9] → t.pc.toNat = s.pc.toNat + 2 ∨ t.pc.toNat = s.pc.toNat + 4)

/-- R42: no step changes memory, on a machine of any parameters. -/
def Obligations.StepNeverChangesMemory : Prop :=
  ∀ (cfg : Config) (s t : State), stepWith cfg s = .next t →
    t.mem = s.mem ∧ ∀ a, t.memRead1 a = s.memRead1 a

/-- R90: a step is `Ok` or one of the named faults, on every state and every parameters, and `StackOverflow` only with
a finite `STACK_DEPTH`; it is never refused and never `InvalidArgument`. -/
def Obligations.StepCompletesOrFaultsByName : Prop :=
  ∀ (cfg : Config) (s : State),
    (∃ t, stepWith cfg s = .next t) ∨ stepWith cfg s = .fault .emptyStack ∨
    (∃ info, stepWith cfg s = .fault (.outOfBounds info)) ∨
    (∃ w, stepWith cfg s = .fault (.unknownOpcode w)) ∨
    (stepWith cfg s = .fault .stackOverflow ∧ ∃ d, cfg.stackDepth = some d)

/-- R196, derived in the spec from R81: a step gives exactly the fault of the fixed order, fetch bound, decode, then
the instruction's one check, and it completes exactly when none of them applies. That a stack deeper than a finite
`STACK_DEPTH` counts as full in the check of `2NNN` is the model's DESIGN CHOICE (log entry 5); R102 and R195 name the
depth equal to it alone. -/
def Obligations.StepFaultsInFixedOrder : Prop :=
  ∀ (cfg : Config) (s : State),
    (∀ f, stepWith cfg s = .fault f ↔ stepFault cfg s = some f) ∧
    ((∃ t, stepWith cfg s = .next t) ↔ stepFault cfg s = none)

/-- R5, decisions D4 and D6 (log entries 5 and 6): the machine is the one with both open parameters at their defaults.
-/
def Obligations.MachineTakesDefaultParameters : Prop :=
  (∀ s, stepWith { stackDepth := none, strictLowNibble59 := false } s = step s) ∧
  (∀ i s, execWith { stackDepth := none, strictLowNibble59 := false } i s = exec i s)

/-- R195, R102, the spec's own decision D6 (log entry 5): with the default `StackOverflow` is never raised; with a
finite depth `2NNN` raises it at full depth, and below it calls as usual. -/
def Obligations.StackOverflowOnlyAtFiniteDepth : Prop :=
  (∀ s, step s ≠ .fault .stackOverflow) ∧
  (∀ (strict : Bool) (d : Nat) (nnn : Imm12) (s : State),
    (s.stack.length = d → execWith ⟨some d, strict⟩ (.call nnn) s = .fault .stackOverflow) ∧
    (s.stack.length < d → execWith ⟨some d, strict⟩ (.call nnn) s =
      .next { s with stack := s.pc :: s.stack, pc := BitVec.ofNat 16 nnn.toNat })) ∧
  (∀ (strict : Bool) (d : Nat) (w : Word) (s : State), Fetches s w → w.toNat / 4096 = 0x2 → s.stack.length = d →
    performWith ⟨some d, strict⟩ .step s = (s, .fault .stackOverflow))

/-- R15, R173, R195, decision D6, and the model's own refusal of a deeper host write (log entry 11): on a machine of
finite `STACK_DEPTH` no operation of the host, a step among them, makes the stack deeper than it. -/
def Obligations.FiniteStackDepthIsNeverExceeded : Prop :=
  ∀ (cfg : Config) (d : Nat) (op : HostOp) (s : State), cfg.stackDepth = some d → s.stack.length ≤ d →
    (performWith cfg op s).1.stack.length ≤ d

/-! ### Frames and invariants (10_state) -/

/-- R24: the execute part of an instruction changes only the elements, and only the registers, of its row of the
access matrix; every other register, flag and special register, the memory byte by byte, the stack, the timers, the
display and its flag stay as they were. -/
def Obligations.InstructionsWriteOnlyTheirElements : Prop :=
  ∀ (i : Instr) (s t : State), exec i s = .next t →
    Frame (instrWrites i) s t ∧ ∀ r, r ∉ instrWritesRegs i → t.readV r = s.readV r

/-- R24: a completed step changes only the elements of the `step` row and of its instruction's row, and of the
registers only those of its instruction's row. -/
def Obligations.StepWritesOnlyItsElements : Prop :=
  ∀ (s t : State) (w : Word) (i : Instr), Fetches s w → decodeWord false w = .instr i → step s = .next t →
    Frame (stepWrites ++ instrWrites i) s t ∧ ∀ r, r ∉ instrWritesRegs i → t.readV r = s.readV r

/-- R13, R14, R102 and R42: every step, from every state that meets the invariant, ends in one that meets it. The
canonical form of memory in it is the model's representation, a DESIGN CHOICE (log entry 1). -/
def Obligations.StepKeepsInvariant : Prop :=
  ∀ s t : State, s.Inv → step s = .next t → t.Inv

/-- R22: the state after reset meets the invariant; the canonical form of memory in it is the model's representation, a
DESIGN CHOICE (log entry 1). -/
def Obligations.ResetMeetsInvariant : Prop :=
  State.reset.Inv

/-- R40 and R53 for existing addresses and one byte at each: every operation of the host keeps memory canonical. The
canonical form, a list of rising addresses that lists no 0x00, is the model's representation, a DESIGN CHOICE (log
entry 1), and does not follow from these rules. -/
def Obligations.HostOperationsKeepMemoryCanonical : Prop :=
  ∀ (cfg : Config) (op : HostOp) (s : State), s.mem.wf = true → (performWith cfg op s).1.mem.wf = true

/-- R22, R220; that `DU` is 0 is the spec's own decision D11 (log entry 16): after reset, applied in any state, every
element has its reset value. -/
def Obligations.ResetValues : Prop :=
  ∀ s : State, ∃ t, perform .reset s = (t, .ok) ∧ t = State.reset ∧
    (∀ a, a ≤ 0xFFF → t.memRead1 a = 0x00) ∧ (∀ r, t.readV r = 0x00) ∧ t.i = 0x0000 ∧ t.pc = 0x0200 ∧
    t.stack = [] ∧ t.dt = 0x00 ∧ t.st = 0x00 ∧ (∀ y x, y < 32 → x < 64 → t.disp.pixel y x = false) ∧
    t.du = false ∧ t.opc = 0x0000

/-! ### Control flow (41_control_flow) -/

/-- R100: `00EE` pops an address and jumps there, all 16 bits and unchecked, with the rest of the state as it was, and
where that address is above 4094 the next step raises `OutOfBounds`; on an empty stack it raises `EmptyStack`, and the
step changes nothing. -/
def Obligations.ReturnPopsOrFaultsEmptyStack : Prop :=
  (∀ strict, decodeWord strict 0x00EE = .instr .ret) ∧
  (∀ (s : State) (a : Word) (rest : List Word), s.stack = a :: rest →
    exec .ret s = .next { s with pc := a, stack := rest }) ∧
  (∀ s : State, s.stack = [] → exec .ret s = .fault .emptyStack) ∧
  (∀ s : State, Fetches s 0x00EE → s.stack = [] → perform .step s = (s, .fault .emptyStack)) ∧
  (∀ (s : State) (a : Word) (rest : List Word), Fetches s 0x00EE → s.stack = a :: rest → 4094 < a.toNat →
    ∃ t, step s = .next t ∧ step t = .fault (.outOfBounds a))

/-- R101: `1NNN` sets `PC` to the zero-extended 12-bit target and changes nothing else; with target 0xFFF the step
after it raises `OutOfBounds`. -/
def Obligations.JumpSetsPc : Prop :=
  (∀ (strict : Bool) (nnn : Imm12), decodeWord strict (BitVec.ofNat 16 (0x1000 + nnn.toNat)) = .instr (.jp nnn)) ∧
  (∀ (nnn : Imm12) (s : State), ∃ t, exec (.jp nnn) s = .next t ∧ t = { s with pc := t.pc } ∧
    t.pc.toNat = nnn.toNat) ∧
  (∀ s : State, Fetches s 0x1FFF → ∃ t, step s = .next t ∧ step t = .fault (.outOfBounds 0x0FFF))

/-- R102; the fault of a finite `STACK_DEPTH` is the spec's own decision D6 (log entry 5): `2NNN` pushes the advanced
`PC`, the address of the instruction after the call, sets `PC` to the zero-extended target, and changes nothing else;
with a finite `STACK_DEPTH` at full depth it raises `StackOverflow`. -/
def Obligations.CallPushesReturnAddress : Prop :=
  (∀ (strict : Bool) (nnn : Imm12), decodeWord strict (BitVec.ofNat 16 (0x2000 + nnn.toNat)) = .instr (.call nnn)) ∧
  (∀ (nnn : Imm12) (s : State), ∃ t, exec (.call nnn) s = .next t ∧ t = { s with pc := t.pc, stack := t.stack } ∧
    t.pc.toNat = nnn.toNat ∧ t.stack = s.pc :: s.stack) ∧
  (∀ (s t : State) (w : Word), Fetches s w → w.toNat / 4096 = 0x2 → step s = .next t →
    ∃ a : Word, t.stack = a :: s.stack ∧ a.toNat = s.pc.toNat + 2) ∧
  (∀ (strict : Bool) (nnn : Imm12) (s : State),
    execWith ⟨some s.stack.length, strict⟩ (.call nnn) s = .fault .stackOverflow)

/-- R100, R102: a return that meets the stack a call left resumes at the instruction after the call and leaves the
stack as it was before the call. -/
def Obligations.ReturnUndoesCall : Prop :=
  ∀ (nnn : Imm12) (s : State), ∃ t, exec (.call nnn) s = .next t ∧
    ∀ u : State, u.stack = t.stack → exec .ret u = .next { u with pc := s.pc, stack := s.stack }

/-- R103, R104: `3XNN` skips exactly when `V[x] = nn` and `4XNN` exactly when `V[x] != nn`; a taken skip adds 2 to the
advanced `PC`, and nothing else changes; after a taken `3XNN` at 4094 the next step raises `OutOfBounds`. -/
def Obligations.SkipOnImmediate : Prop :=
  (∀ (strict : Bool) (x : Reg) (nn : Byte),
    decodeWord strict (BitVec.ofNat 16 (0x3000 + x.val * 256 + nn.toNat)) = .instr (.seImm x nn) ∧
    decodeWord strict (BitVec.ofNat 16 (0x4000 + x.val * 256 + nn.toNat)) = .instr (.sneImm x nn)) ∧
  (∀ (x : Reg) (nn : Byte) (s : State),
    (s.readV x = nn → exec (.seImm x nn) s = .next { s with pc := s.pc + 2 } ∧ exec (.sneImm x nn) s = .next s) ∧
    (s.readV x ≠ nn → exec (.seImm x nn) s = .next s ∧ exec (.sneImm x nn) s = .next { s with pc := s.pc + 2 })) ∧
  (∀ (x : Reg) (nn : Byte) (s : State), s.pc = 0x0FFE →
    Fetches s (BitVec.ofNat 16 (0x3000 + x.val * 256 + nn.toNat)) → s.readV x = nn →
      ∃ t, step s = .next t ∧ t.pc = 0x1002 ∧ step t = .fault (.outOfBounds 0x1002))

/-- R105, R106; that `n` is ignored by default is the spec's own decision D4 (log entry 6): `5XYn` skips exactly when
`V[x] = V[y]` and `9XYn` exactly when `V[x] != V[y]`, whatever `n` is by default; with the strict parameter `n` other
than 0 is `UnknownOpcode`; with `x = y` the first always skips and the second never. -/
def Obligations.SkipOnRegister : Prop :=
  (∀ (x y : Reg) (n : Nibble),
    decodeWord false (BitVec.ofNat 16 (0x5000 + x.val * 256 + y.val * 16 + n.toNat)) = .instr (.seReg x y n) ∧
    decodeWord false (BitVec.ofNat 16 (0x9000 + x.val * 256 + y.val * 16 + n.toNat)) = .instr (.sneReg x y n)) ∧
  (∀ (w : Word), w.toNat / 4096 ∈ [0x5, 0x9] → w.toNat % 16 ≠ 0 → decodeWord true w = .unknownOpcode w) ∧
  (∀ (x y : Reg) (n : Nibble) (s : State),
    (s.readV x = s.readV y →
      exec (.seReg x y n) s = .next { s with pc := s.pc + 2 } ∧ exec (.sneReg x y n) s = .next s) ∧
    (s.readV x ≠ s.readV y →
      exec (.seReg x y n) s = .next s ∧ exec (.sneReg x y n) s = .next { s with pc := s.pc + 2 }) ∧
    exec (.seReg x x n) s = .next { s with pc := s.pc + 2 } ∧ exec (.sneReg x x n) s = .next s)

/-- R226, derived in the spec from R101 and R81 (the marker itself is decision D17): at a `1NNN` that jumps to itself,
a step leaves all but the timers, `DU` and `OPC` as they were, ticks the timers, clears `DU` and sets `OPC` to that
word. -/
def Obligations.SelfJumpIdles : Prop :=
  ∀ s : State, ∀ w : Word, Fetches s w → w.toNat = 0x1000 + s.pc.toNat →
    ∃ t, step s = .next t ∧ t = { s with dt := t.dt, st := t.st, du := false, opc := w } ∧
      t.dt.toNat = s.dt.toNat - 1 ∧ t.st.toNat = s.st.toNat - 1

/-! ### Registers, arithmetic and logic (42_register_alu) -/

/-- R120: `6XNN` loads `nn` into `V[x]` and changes nothing else. -/
def Obligations.LoadImmediate : Prop :=
  (∀ (strict : Bool) (x : Reg) (nn : Byte),
    decodeWord strict (BitVec.ofNat 16 (0x6000 + x.val * 256 + nn.toNat)) = .instr (.ldImm x nn)) ∧
  (∀ (x : Reg) (nn : Byte) (s : State), ∃ t, exec (.ldImm x nn) s = .next t ∧ Frame [.v] s t ∧
    ∀ r, t.readV r = if r = x then nn else s.readV r)

/-- R121: `7XNN` adds `nn` to `V[x]` modulo 256; VF is not written unless it is `V[x]`; nothing else changes. -/
def Obligations.AddImmediateWraps : Prop :=
  (∀ (strict : Bool) (x : Reg) (nn : Byte),
    decodeWord strict (BitVec.ofNat 16 (0x7000 + x.val * 256 + nn.toNat)) = .instr (.addImm x nn)) ∧
  (∀ (x : Reg) (nn : Byte) (s : State), ∃ t, exec (.addImm x nn) s = .next t ∧ Frame [.v] s t ∧
    (t.readV x).toNat = ((s.readV x).toNat + nn.toNat) % 256 ∧ ∀ r, r ≠ x → t.readV r = s.readV r)

/-- R122: `8XY0` copies `V[y]` to `V[x]`; VF is not written unless it is `V[x]`; nothing else changes. -/
def Obligations.CopyRegister : Prop :=
  (∀ (strict : Bool) (x y : Reg),
    decodeWord strict (BitVec.ofNat 16 (0x8000 + x.val * 256 + y.val * 16)) = .instr (.ldReg x y)) ∧
  (∀ (x y : Reg) (s : State), ∃ t, exec (.ldReg x y) s = .next t ∧ Frame [.v] s t ∧
    ∀ r, t.readV r = if r = x then s.readV y else s.readV r)

/-- R123, R124, R125: `8XY1`, `8XY2`, `8XY3` write the bitwise OR, AND, XOR of `V[x]` and `V[y]` to `V[x]`; VF is
untouched unless it is `V[x]`; nothing else changes. -/
def Obligations.BitwiseLogicLeavesVf : Prop :=
  (∀ (strict : Bool) (x y : Reg),
    decodeWord strict (BitVec.ofNat 16 (0x8001 + x.val * 256 + y.val * 16)) = .instr (.orReg x y) ∧
    decodeWord strict (BitVec.ofNat 16 (0x8002 + x.val * 256 + y.val * 16)) = .instr (.andReg x y) ∧
    decodeWord strict (BitVec.ofNat 16 (0x8003 + x.val * 256 + y.val * 16)) = .instr (.xorReg x y)) ∧
  (∀ (x y : Reg) (s : State),
    (∃ t, exec (.orReg x y) s = .next t ∧ Frame [.v] s t ∧ (∀ r, r ≠ x → t.readV r = s.readV r) ∧
      ∀ k, (t.readV x).getLsbD k = ((s.readV x).getLsbD k || (s.readV y).getLsbD k)) ∧
    (∃ t, exec (.andReg x y) s = .next t ∧ Frame [.v] s t ∧ (∀ r, r ≠ x → t.readV r = s.readV r) ∧
      ∀ k, (t.readV x).getLsbD k = ((s.readV x).getLsbD k && (s.readV y).getLsbD k)) ∧
    (∃ t, exec (.xorReg x y) s = .next t ∧ Frame [.v] s t ∧ (∀ r, r ≠ x → t.readV r = s.readV r) ∧
      ∀ k, (t.readV x).getLsbD k = ((s.readV x).getLsbD k != (s.readV y).getLsbD k)))

/-- R126: `8XY4` writes the sum modulo 256 to `V[x]` and then the carry to VF, so that at `x = 15` VF is the carry;
nothing else changes. -/
def Obligations.AddRegisterCarry : Prop :=
  (∀ (strict : Bool) (x y : Reg),
    decodeWord strict (BitVec.ofNat 16 (0x8004 + x.val * 256 + y.val * 16)) = .instr (.addReg x y)) ∧
  (∀ (x y : Reg) (s : State), ∃ t, exec (.addReg x y) s = .next t ∧ Frame [.v] s t ∧
    (x ≠ 15 → (t.readV x).toNat = ((s.readV x).toNat + (s.readV y).toNat) % 256) ∧
    t.readV 15 = (if (s.readV x).toNat + (s.readV y).toNat > 255 then 1 else 0) ∧
    ∀ r, r ≠ x → r ≠ 15 → t.readV r = s.readV r)

/-- R127: `8XY5` writes `V[x] - V[y]` modulo 256 to `V[x]` and then 1 to VF if `V[x] >= V[y]`, else 0; nothing else
changes. -/
def Obligations.SubtractNoBorrow : Prop :=
  (∀ (strict : Bool) (x y : Reg),
    decodeWord strict (BitVec.ofNat 16 (0x8005 + x.val * 256 + y.val * 16)) = .instr (.sub x y)) ∧
  (∀ (x y : Reg) (s : State), ∃ t, exec (.sub x y) s = .next t ∧ Frame [.v] s t ∧
    (x ≠ 15 → ((t.readV x).toNat : Int) = (((s.readV x).toNat : Int) - (s.readV y).toNat) % 256) ∧
    t.readV 15 = (if (s.readV x).toNat ≥ (s.readV y).toNat then 1 else 0) ∧
    ∀ r, r ≠ x → r ≠ 15 → t.readV r = s.readV r)

/-- R129: `8XY7` writes `V[y] - V[x]` modulo 256 to `V[x]` and then 1 to VF if `V[y] >= V[x]`, else 0; nothing else
changes. -/
def Obligations.SubtractReversedNoBorrow : Prop :=
  (∀ (strict : Bool) (x y : Reg),
    decodeWord strict (BitVec.ofNat 16 (0x8007 + x.val * 256 + y.val * 16)) = .instr (.subn x y)) ∧
  (∀ (x y : Reg) (s : State), ∃ t, exec (.subn x y) s = .next t ∧ Frame [.v] s t ∧
    (x ≠ 15 → ((t.readV x).toNat : Int) = (((s.readV y).toNat : Int) - (s.readV x).toNat) % 256) ∧
    t.readV 15 = (if (s.readV y).toNat ≥ (s.readV x).toNat then 1 else 0) ∧
    ∀ r, r ≠ x → r ≠ 15 → t.readV r = s.readV r)

/-- R128, R130: `8XY6` halves `V[x]` and puts its old bit 0 in VF, `8XYE` doubles it modulo 256 and puts its old bit 7
in VF, whatever `y` is; `V[y]` is not written unless it is one of the two; nothing else changes. -/
def Obligations.ShiftsMoveBitToVf : Prop :=
  (∀ (strict : Bool) (x y : Reg),
    decodeWord strict (BitVec.ofNat 16 (0x8006 + x.val * 256 + y.val * 16)) = .instr (.shr x y) ∧
    decodeWord strict (BitVec.ofNat 16 (0x800E + x.val * 256 + y.val * 16)) = .instr (.shl x y)) ∧
  (∀ (x y : Reg) (s : State),
    (∃ t, exec (.shr x y) s = .next t ∧ Frame [.v] s t ∧
      (x ≠ 15 → (t.readV x).toNat = (s.readV x).toNat / 2) ∧ (t.readV 15).toNat = (s.readV x).toNat % 2 ∧
      (∀ r, r ≠ x → r ≠ 15 → t.readV r = s.readV r) ∧ ∀ y', exec (.shr x y') s = exec (.shr x y) s) ∧
    (∃ t, exec (.shl x y) s = .next t ∧ Frame [.v] s t ∧
      (x ≠ 15 → (t.readV x).toNat = (s.readV x).toNat * 2 % 256) ∧ (t.readV 15).toNat = (s.readV x).toNat / 128 ∧
      (∀ r, r ≠ x → r ≠ 15 → t.readV r = s.readV r) ∧ ∀ y', exec (.shl x y') s = exec (.shl x y) s))

/-- R131: `ANNN` sets `I` to the zero-extended 12-bit immediate and changes nothing else. -/
def Obligations.LoadIndexRegister : Prop :=
  (∀ (strict : Bool) (nnn : Imm12), decodeWord strict (BitVec.ofNat 16 (0xA000 + nnn.toNat)) = .instr (.ldI nnn)) ∧
  (∀ (nnn : Imm12) (s : State), ∃ t, exec (.ldI nnn) s = .next t ∧ Frame [.i] s t ∧ t.i.toNat = nnn.toNat)

/-- R132, the spec's own decision D5 (log entry 9): in the five flag-writing instructions of 42_register_alu the flag
is the last write: at `x = 15` the instruction leaves 0x00 or 0x01 in VF, computed from the old VF, and the result is
lost; at `y = 15` the old VF is the operand. -/
def Obligations.FlagSurvivesAtVf : Prop :=
  (∀ (y : Reg) (s : State),
    let a := (s.readV 15).toNat
    let b := (s.readV y).toNat
    (∃ t, exec (.addReg 15 y) s = .next t ∧ t.readV 15 = if a + b > 255 then 0x01 else 0x00) ∧
    (∃ t, exec (.sub 15 y) s = .next t ∧ t.readV 15 = if a ≥ b then 0x01 else 0x00) ∧
    (∃ t, exec (.subn 15 y) s = .next t ∧ t.readV 15 = if b ≥ a then 0x01 else 0x00) ∧
    (∃ t, exec (.shr 15 y) s = .next t ∧ t.readV 15 = if a % 2 = 1 then 0x01 else 0x00) ∧
    (∃ t, exec (.shl 15 y) s = .next t ∧ t.readV 15 = if a ≥ 128 then 0x01 else 0x00)) ∧
  (∀ (x : Reg) (s : State), x ≠ 15 →
    (∃ t, exec (.addReg x 15) s = .next t ∧
      (t.readV x).toNat = ((s.readV x).toNat + (s.readV 15).toNat) % 256) ∧
    (∃ t, exec (.sub x 15) s = .next t ∧
      (t.readV x).toNat = ((s.readV x).toNat + 256 - (s.readV 15).toNat) % 256) ∧
    (∃ t, exec (.subn x 15) s = .next t ∧
      (t.readV x).toNat = ((s.readV 15).toNat + 256 - (s.readV x).toNat) % 256))

/-! ### Display (43_display, 20_memory) -/

/-- R140: `00E0` leaves every pixel unlit whatever was lit, sets `DU`, and changes nothing else, VF included. -/
def Obligations.ClearBlanksDisplay : Prop :=
  (∀ strict, decodeWord strict 0x00E0 = .instr .cls) ∧
  (∀ s : State, ∃ t, exec .cls s = .next t ∧ Frame [.disp, .du] s t ∧ t.du = true ∧
    ∀ y x, y < 32 → x < 64 → t.disp.pixel y x = false)

/-- R46, the spec's own decision D7 (log entry 8): `DXYN` with `n >= 1` raises `OutOfBounds(I)`, before any pixel
changes and with no state changed, exactly when `I + n - 1 > 4095`, the sum unreduced and clipped rows included; with
`n = 0` no bound applies. -/
def Obligations.SpriteRowsMustLieInMemory : Prop :=
  ∀ (x y : Reg) (n : Nibble) (s : State),
    (1 ≤ n.toNat → 4095 < s.i.toNat + n.toNat - 1 → exec (.drw x y n) s = .fault (.outOfBounds s.i) ∧
      ∀ u w, u.i = s.i → Fetches u w → decodeWord false w = .instr (.drw x y n) →
        perform .step u = (u, .fault (.outOfBounds u.i))) ∧
    (n.toNat = 0 ∨ s.i.toNat + n.toNat - 1 ≤ 4095 → ∃ t, exec (.drw x y n) s = .next t)

/-- R141, R142, R144, R145, R146, R147; the fault is the spec's own decision D7 (log entry 8): where a row lies
outside memory `DXYN` raises `OutOfBounds(I)`; where all rows lie in memory it completes; every pixel is its old value
XOR the sprite's bit there, VF is 1 if some unclipped 1 bit lay over a lit pixel and else 0, `DU` is 1, and nothing
else changes. The coordinates are read before VF is written. -/
def Obligations.DrawXorsSpriteOntoDisplay : Prop :=
  (∀ (strict : Bool) (x y : Reg) (n : Nibble),
    decodeWord strict (BitVec.ofNat 16 (0xD000 + x.val * 256 + y.val * 16 + n.toNat)) = .instr (.drw x y n)) ∧
  (∀ (x y : Reg) (n : Nibble) (s : State), 1 ≤ n.toNat → 4095 < s.i.toNat + n.toNat - 1 →
    exec (.drw x y n) s = .fault (.outOfBounds s.i)) ∧
  (∀ (x y : Reg) (n : Nibble) (s : State), n.toNat = 0 ∨ s.i.toNat + n.toNat - 1 ≤ 4095 →
    ∃ t, exec (.drw x y n) s = .next t ∧ Frame [.v, .disp, .du] s t ∧ t.du = true ∧
      (∀ py px, py < 32 → px < 64 → t.disp.pixel py px = (s.disp.pixel py px != spriteBit s x y n.toNat py px)) ∧
      (spriteCollides s x y n.toNat → t.readV 15 = 1) ∧ (¬ spriteCollides s x y n.toNat → t.readV 15 = 0) ∧
      ∀ r, r ≠ 15 → t.readV r = s.readV r)

/-- R143: only pixels with `xo <= px <= min(xo + 7, 63)` and `yo <= py <= min(yo + n - 1, 31)` can change, and where
the display is unlit there, VF is 0 whatever is lit elsewhere; each of them takes the XOR of its sprite bit, the bit
`7 - (px - xo)` of the byte `mem[I + (py - yo)]`. -/
def Obligations.SpriteIsClippedNotWrapped : Prop :=
  ∀ (x y : Reg) (n : Nibble) (s t : State), exec (.drw x y n) s = .next t →
    let xo := (s.readV x).toNat % 64
    let yo := (s.readV y).toNat % 32
    (∀ py px, t.disp.pixel py px ≠ s.disp.pixel py px →
      xo ≤ px ∧ px ≤ min (xo + 7) 63 ∧ yo ≤ py ∧ py + 1 ≤ min (yo + n.toNat) 32) ∧
    ((∀ py px, xo ≤ px → px ≤ min (xo + 7) 63 → yo ≤ py → py + 1 ≤ min (yo + n.toNat) 32 →
      s.disp.pixel py px = false) → t.readV 15 = 0) ∧
    (∀ py px, xo ≤ px → px ≤ min (xo + 7) 63 → yo ≤ py → py + 1 ≤ min (yo + n.toNat) 32 →
      t.disp.pixel py px =
        (s.disp.pixel py px != (s.memRead1 (s.i.toNat + (py - yo))).getLsbD (7 - (px - xo))))

/-- R144: VF is 1 exactly when some unclipped sprite bit equal to 1 lies over a pixel that was lit before the draw,
that is exactly when the draw turned some lit pixel unlit, and else 0; where the sprite has no 1 bit no pixel changes.
-/
def Obligations.CollisionMeansLitPixelTurnedOff : Prop :=
  ∀ (x y : Reg) (n : Nibble) (s t : State), exec (.drw x y n) s = .next t →
    (t.readV 15 = 0 ∨ t.readV 15 = 1) ∧
    (t.readV 15 = 1 ↔ spriteCollides s x y n.toNat) ∧
    (t.readV 15 = 1 ↔
      ∃ py px, py < 32 ∧ px < 64 ∧ s.disp.pixel py px = true ∧ t.disp.pixel py px = false) ∧
    ∀ py px, spriteBit s x y n.toNat py px = false → t.disp.pixel py px = s.disp.pixel py px

/-- R145, derived in the spec from R141 and R143: drawing the same sprite again, from the display the first draw left
and with the same memory, `I` and coordinates, restores the display exactly, and the second draw reports VF = 1
exactly when the sprite has an unclipped 1 bit that ended lit after the first. -/
def Obligations.DrawingTwiceRestoresDisplay : Prop :=
  ∀ (x y : Reg) (n : Nibble) (s t u v : State), exec (.drw x y n) s = .next t →
    u.disp = t.disp → u.mem = s.mem → u.i = s.i → u.readV x = s.readV x → u.readV y = s.readV y →
    exec (.drw x y n) u = .next v →
    v.disp = s.disp ∧
    (v.readV 15 = 1 ↔
      ∃ py px, py < 32 ∧ px < 64 ∧ spriteBit s x y n.toNat py px = true ∧ t.disp.pixel py px = true)

/-! ### Timers (44_timer_unit) -/

/-- R160: at the end of every completed step each timer is one less, floored at zero; a faulting step does not tick.
-/
def Obligations.TimersTickOncePerCompletedStep : Prop :=
  (∀ s t : State, step s = .next t → t.dt.toNat = s.dt.toNat - 1 ∧ t.st.toNat = s.st.toNat - 1) ∧
  (∀ (s : State) (f : Fault), (perform .step s).2 = .fault f →
    (perform .step s).1.dt = s.dt ∧ (perform .step s).1.st = s.st)

/-- R161, derived in the spec from R160: after `k` completed steps with no write between them, a timer that held `t`
holds `max(t - k, 0)`, whatever the other holds. -/
def Obligations.TimersAfterManySteps : Prop :=
  ∀ (k : Nat) (s t : State), core.run k s = .next t →
    t.dt.toNat = s.dt.toNat - k ∧ t.st.toNat = s.st.toNat - k

/-! ### Host interface (45_host_interface, 60_exceptions) -/

/-- R171 (decision D21 for absent data, log entry 17): `LoadFont` with 80 bytes puts them at 0x050 to 0x09F, in order,
and changes nothing else; with any other length it raises `InvalidArgument` and changes nothing. -/
def Obligations.LoadFontWritesFontRegion : Prop :=
  (∀ (font : List Byte) (s : State), s.mem.wf = true → font.length = 80 →
    ∃ t, perform (.loadFont font) s = (t, .ok) ∧ Frame [.mem] s t ∧
      (∀ k (h : k < font.length), t.memRead1 (0x050 + k) = font[k]) ∧
      ∀ a, a < 0x050 ∨ 0x09F < a → t.memRead1 a = s.memRead1 a) ∧
  (∀ (font : List Byte) (s : State), font.length ≠ 80 →
    perform (.loadFont font) s = (s, .fault .invalidArgument))

/-- R172; the bound is the spec's own decision D12: `Load` of at most 3584 bytes puts them at 0x200 and up, in order,
sets `PC` to 0x200, and changes nothing else; of more it raises `OutOfBounds(0x0200)` and changes nothing. -/
def Obligations.LoadWritesProgramAndPc : Prop :=
  (∀ (rom : List Byte) (s : State), s.mem.wf = true → rom.length ≤ 3584 →
    ∃ t, perform (.load rom) s = (t, .ok) ∧ Frame [.mem, .pc] s t ∧ t.pc = 0x0200 ∧
      (∀ k (h : k < rom.length), t.memRead1 (0x200 + k) = rom[k]) ∧
      ∀ a, a < 0x200 ∨ 0x200 + rom.length ≤ a → t.memRead1 a = s.memRead1 a) ∧
  (∀ (rom : List Byte) (s : State), 3584 < rom.length →
    perform (.load rom) s = (s, .fault (.outOfBounds 0x0200)))

/-- R173, the spec's own decision D15 (log entry 12): a host write replaces the named element with the value, whatever
it is, and has no other effect; a read has none. -/
def Obligations.HostWriteReplacesOneElement : Prop :=
  (∀ (s : State) (t : HostRead), perform (.read t) s = (s, .value (hostRead t s))) ∧
  (∀ (s : State) (a : Imm12) (b : Byte), s.mem.wf = true →
    ∃ t, perform (.write (.mem a b)) s = (t, .ok) ∧ Frame [.mem] s t ∧ hostRead (.mem a) t = .byte b ∧
      ∀ a' : Nat, a' ≠ a.toNat → t.memRead1 a' = s.memRead1 a') ∧
  (∀ (s : State) (x : Reg) (b : Byte),
    ∃ t, perform (.write (.v x b)) s = (t, .ok) ∧ Frame [.v] s t ∧ hostRead (.v x) t = .byte b ∧
      ∀ r, r ≠ x → t.readV r = s.readV r) ∧
  (∀ (s : State) (w : Word), perform (.write (.i w)) s = ({ s with i := w }, .ok)) ∧
  (∀ (s : State) (w : Word), perform (.write (.pc w)) s = ({ s with pc := w }, .ok)) ∧
  (∀ (s : State) (ws : List Word), perform (.write (.stack ws)) s = ({ s with stack := ws }, .ok)) ∧
  (∀ (s : State) (b : Byte), perform (.write (.dt b)) s = ({ s with dt := b }, .ok)) ∧
  (∀ (s : State) (b : Byte), perform (.write (.st b)) s = ({ s with st := b }, .ok))

/-- R70, R43, R50, with the model's `withFetchWord` (log entry 13): an instruction word stored at `PC` and `PC + 1`,
high byte first, is the word the next step fetches. -/
def Obligations.StoredWordIsFetched : Prop :=
  ∀ (s : State) (w : Word), s.mem.wf = true → s.pc.toNat ≤ 4094 →
    Fetches (s.withFetchWord 16 w.toNat) w ∧ Frame [.mem] s (s.withFetchWord 16 w.toNat)

/-- R190; the numbers are the spec's own decisions D8 and D9 (log entry 14): the causes and the `info` each fault
carries. -/
def Obligations.FaultCodesAndInfo : Prop :=
  (Fault.invalidArgument.code = 1 ∧ Fault.invalidArgument.info = 0) ∧
  (∀ w, (Fault.outOfBounds w).code = 2 ∧ (Fault.outOfBounds w).info = w) ∧
  (Fault.emptyStack.code = 3 ∧ Fault.emptyStack.info = 0) ∧
  (∀ w, (Fault.unknownOpcode w).code = 4 ∧ (Fault.unknownOpcode w).info = w) ∧
  (Fault.stackOverflow.code = 5 ∧ Fault.stackOverflow.info = 0)
end

