-- ==== Sys2Proof/Laws/Decode.lean ====
section
/-! SUPPORT. The fields of a word as numbers, and the fields of each encoding format (30_encoding rules R61, R70). -/

namespace Sys2Proof

theorem fieldOp_toNat (w : Word) : (fieldOp w).toNat = w.toNat / 4096 % 16 := by
  simp [fieldOp, BitVec.extractLsb'_toNat, Nat.shiftRight_eq_div_pow]

theorem fieldN_toNat (w : Word) : (fieldN w).toNat = w.toNat % 16 := by
  simp [fieldN, BitVec.extractLsb'_toNat]

theorem fieldNN_toNat (w : Word) : (fieldNN w).toNat = w.toNat % 256 := by
  simp [fieldNN, BitVec.extractLsb'_toNat]

theorem fieldNNN_toNat (w : Word) : (fieldNNN w).toNat = w.toNat % 4096 := by
  simp [fieldNNN, BitVec.extractLsb'_toNat]

theorem highByte_toNat (w : Word) : (highByte w).toNat = w.toNat / 256 := by
  have := w.isLt
  simp [highByte, BitVec.extractLsb'_toNat, Nat.shiftRight_eq_div_pow]
  omega

theorem lowByte_toNat (w : Word) : (lowByte w).toNat = w.toNat % 256 := by
  simp [lowByte, BitVec.extractLsb'_toNat]

/-- Big-endian: the first byte is the high byte (R43). -/
theorem wordOfBytes_toNat (hi lo : Byte) : (wordOfBytes hi lo).toNat = hi.toNat * 256 + lo.toNat := by
  have := hi.isLt
  have := lo.isLt
  simp [wordOfBytes]
  omega

theorem wordOfBytes_highByte_lowByte (w : Word) : wordOfBytes (highByte w) (lowByte w) = w := by
  apply BitVec.eq_of_toNat_eq
  rw [wordOfBytes_toNat, highByte_toNat, lowByte_toNat]
  omega

theorem encodeNNN_toNat (op : Nat) (nnn : Imm12) (h : op < 16) :
    (encodeNNN op nnn).toNat = op * 4096 + nnn.toNat := by
  have := nnn.isLt
  simp [encodeNNN]
  omega

theorem encodeXNN_toNat (op : Nat) (x : Reg) (nn : Byte) (h : op < 16) :
    (encodeXNN op x nn).toNat = op * 4096 + x.val * 256 + nn.toNat := by
  have := nn.isLt
  have := x.isLt
  simp [encodeXNN]
  omega

theorem encodeXYN_toNat (op : Nat) (x y : Reg) (n : Nibble) (h : op < 16) :
    (encodeXYN op x y n).toNat = op * 4096 + x.val * 256 + y.val * 16 + n.toNat := by
  have := n.isLt
  have := x.isLt
  have := y.isLt
  simp [encodeXYN]
  omega

/-- The fields of a word of format `NNN` are the ones it was made of. -/
theorem fields_encodeNNN (op : Nat) (nnn : Imm12) (h : op < 16) :
    fieldOp (encodeNNN op nnn) = BitVec.ofNat 4 op ∧ fieldNNN (encodeNNN op nnn) = nnn := by
  have := nnn.isLt
  constructor
  · apply BitVec.eq_of_toNat_eq
    rw [fieldOp_toNat, encodeNNN_toNat op nnn h, BitVec.toNat_ofNat]
    omega
  · apply BitVec.eq_of_toNat_eq
    rw [fieldNNN_toNat, encodeNNN_toNat op nnn h]
    omega

/-- The fields of a word of format `XNN` are the ones it was made of. -/
theorem fields_encodeXNN (op : Nat) (x : Reg) (nn : Byte) (h : op < 16) :
    fieldOp (encodeXNN op x nn) = BitVec.ofNat 4 op ∧ fieldX (encodeXNN op x nn) = x ∧
      fieldNN (encodeXNN op x nn) = nn := by
  have := nn.isLt
  have := x.isLt
  refine ⟨?_, ?_, ?_⟩
  · apply BitVec.eq_of_toNat_eq
    rw [fieldOp_toNat, encodeXNN_toNat op x nn h, BitVec.toNat_ofNat]
    omega
  · apply Fin.ext
    simp only [fieldX, encodeXNN_toNat op x nn h]
    omega
  · apply BitVec.eq_of_toNat_eq
    rw [fieldNN_toNat, encodeXNN_toNat op x nn h]
    omega

/-- The fields of a word of format `XY` or `XYN` are the ones it was made of. -/
theorem fields_encodeXYN (op : Nat) (x y : Reg) (n : Nibble) (h : op < 16) :
    fieldOp (encodeXYN op x y n) = BitVec.ofNat 4 op ∧ fieldX (encodeXYN op x y n) = x ∧
      fieldY (encodeXYN op x y n) = y ∧ fieldN (encodeXYN op x y n) = n := by
  have := n.isLt
  have := x.isLt
  have := y.isLt
  refine ⟨?_, ?_, ?_, ?_⟩
  · apply BitVec.eq_of_toNat_eq
    rw [fieldOp_toNat, encodeXYN_toNat op x y n h, BitVec.toNat_ofNat]
    omega
  · apply Fin.ext
    simp only [fieldX, encodeXYN_toNat op x y n h]
    omega
  · apply Fin.ext
    simp only [fieldY, encodeXYN_toNat op x y n h]
    omega
  · apply BitVec.eq_of_toNat_eq
    rw [fieldN_toNat, encodeXYN_toNat op x y n h]
    omega

end Sys2Proof
end

