-- ==== Sys2Proof/Laws/State.lean ====
section
/-! SUPPORT. One lemma per field per update of the state, so that no proof unfolds a record update. -/

namespace Sys2Proof.Machine

/-! ### State.writeV -/

@[simp] theorem State.writeV_mem (s : State) (x : Reg) (b : Byte) : (s.writeV x b).mem = s.mem := rfl
@[simp] theorem State.writeV_v (s : State) (x : Reg) (b : Byte) : (s.writeV x b).v = s.v.set x b := rfl
@[simp] theorem State.writeV_i (s : State) (x : Reg) (b : Byte) : (s.writeV x b).i = s.i := rfl
@[simp] theorem State.writeV_pc (s : State) (x : Reg) (b : Byte) : (s.writeV x b).pc = s.pc := rfl
@[simp] theorem State.writeV_stack (s : State) (x : Reg) (b : Byte) : (s.writeV x b).stack = s.stack := rfl
@[simp] theorem State.writeV_dt (s : State) (x : Reg) (b : Byte) : (s.writeV x b).dt = s.dt := rfl
@[simp] theorem State.writeV_st (s : State) (x : Reg) (b : Byte) : (s.writeV x b).st = s.st := rfl
@[simp] theorem State.writeV_disp (s : State) (x : Reg) (b : Byte) : (s.writeV x b).disp = s.disp := rfl
@[simp] theorem State.writeV_du (s : State) (x : Reg) (b : Byte) : (s.writeV x b).du = s.du := rfl
@[simp] theorem State.writeV_opc (s : State) (x : Reg) (b : Byte) : (s.writeV x b).opc = s.opc := rfl

/-! ### State.setI -/

@[simp] theorem State.setI_mem (s : State) (w : Word) : (s.setI w).mem = s.mem := rfl
@[simp] theorem State.setI_v (s : State) (w : Word) : (s.setI w).v = s.v := rfl
@[simp] theorem State.setI_i (s : State) (w : Word) : (s.setI w).i = w := rfl
@[simp] theorem State.setI_pc (s : State) (w : Word) : (s.setI w).pc = s.pc := rfl
@[simp] theorem State.setI_stack (s : State) (w : Word) : (s.setI w).stack = s.stack := rfl
@[simp] theorem State.setI_dt (s : State) (w : Word) : (s.setI w).dt = s.dt := rfl
@[simp] theorem State.setI_st (s : State) (w : Word) : (s.setI w).st = s.st := rfl
@[simp] theorem State.setI_disp (s : State) (w : Word) : (s.setI w).disp = s.disp := rfl
@[simp] theorem State.setI_du (s : State) (w : Word) : (s.setI w).du = s.du := rfl
@[simp] theorem State.setI_opc (s : State) (w : Word) : (s.setI w).opc = s.opc := rfl

/-! ### State.setPc -/

@[simp] theorem State.setPc_mem (s : State) (w : Word) : (s.setPc w).mem = s.mem := rfl
@[simp] theorem State.setPc_v (s : State) (w : Word) : (s.setPc w).v = s.v := rfl
@[simp] theorem State.setPc_i (s : State) (w : Word) : (s.setPc w).i = s.i := rfl
@[simp] theorem State.setPc_pc (s : State) (w : Word) : (s.setPc w).pc = w := rfl
@[simp] theorem State.setPc_stack (s : State) (w : Word) : (s.setPc w).stack = s.stack := rfl
@[simp] theorem State.setPc_dt (s : State) (w : Word) : (s.setPc w).dt = s.dt := rfl
@[simp] theorem State.setPc_st (s : State) (w : Word) : (s.setPc w).st = s.st := rfl
@[simp] theorem State.setPc_disp (s : State) (w : Word) : (s.setPc w).disp = s.disp := rfl
@[simp] theorem State.setPc_du (s : State) (w : Word) : (s.setPc w).du = s.du := rfl
@[simp] theorem State.setPc_opc (s : State) (w : Word) : (s.setPc w).opc = s.opc := rfl

/-! ### State.advancePc -/

@[simp] theorem State.advancePc_mem (s : State) : (s.advancePc).mem = s.mem := rfl
@[simp] theorem State.advancePc_v (s : State) : (s.advancePc).v = s.v := rfl
@[simp] theorem State.advancePc_i (s : State) : (s.advancePc).i = s.i := rfl
@[simp] theorem State.advancePc_pc (s : State) : (s.advancePc).pc = s.pc + 2 := rfl
@[simp] theorem State.advancePc_stack (s : State) : (s.advancePc).stack = s.stack := rfl
@[simp] theorem State.advancePc_dt (s : State) : (s.advancePc).dt = s.dt := rfl
@[simp] theorem State.advancePc_st (s : State) : (s.advancePc).st = s.st := rfl
@[simp] theorem State.advancePc_disp (s : State) : (s.advancePc).disp = s.disp := rfl
@[simp] theorem State.advancePc_du (s : State) : (s.advancePc).du = s.du := rfl
@[simp] theorem State.advancePc_opc (s : State) : (s.advancePc).opc = s.opc := rfl

/-! ### State.push -/

@[simp] theorem State.push_mem (s : State) (w : Word) : (s.push w).mem = s.mem := rfl
@[simp] theorem State.push_v (s : State) (w : Word) : (s.push w).v = s.v := rfl
@[simp] theorem State.push_i (s : State) (w : Word) : (s.push w).i = s.i := rfl
@[simp] theorem State.push_pc (s : State) (w : Word) : (s.push w).pc = s.pc := rfl
@[simp] theorem State.push_stack (s : State) (w : Word) : (s.push w).stack = w :: s.stack := rfl
@[simp] theorem State.push_dt (s : State) (w : Word) : (s.push w).dt = s.dt := rfl
@[simp] theorem State.push_st (s : State) (w : Word) : (s.push w).st = s.st := rfl
@[simp] theorem State.push_disp (s : State) (w : Word) : (s.push w).disp = s.disp := rfl
@[simp] theorem State.push_du (s : State) (w : Word) : (s.push w).du = s.du := rfl
@[simp] theorem State.push_opc (s : State) (w : Word) : (s.push w).opc = s.opc := rfl

/-! ### State.setDisp -/

@[simp] theorem State.setDisp_mem (s : State) (d : Display) : (s.setDisp d).mem = s.mem := rfl
@[simp] theorem State.setDisp_v (s : State) (d : Display) : (s.setDisp d).v = s.v := rfl
@[simp] theorem State.setDisp_i (s : State) (d : Display) : (s.setDisp d).i = s.i := rfl
@[simp] theorem State.setDisp_pc (s : State) (d : Display) : (s.setDisp d).pc = s.pc := rfl
@[simp] theorem State.setDisp_stack (s : State) (d : Display) : (s.setDisp d).stack = s.stack := rfl
@[simp] theorem State.setDisp_dt (s : State) (d : Display) : (s.setDisp d).dt = s.dt := rfl
@[simp] theorem State.setDisp_st (s : State) (d : Display) : (s.setDisp d).st = s.st := rfl
@[simp] theorem State.setDisp_disp (s : State) (d : Display) : (s.setDisp d).disp = d := rfl
@[simp] theorem State.setDisp_du (s : State) (d : Display) : (s.setDisp d).du = s.du := rfl
@[simp] theorem State.setDisp_opc (s : State) (d : Display) : (s.setDisp d).opc = s.opc := rfl

/-! ### State.markUpdated -/

@[simp] theorem State.markUpdated_mem (s : State) : (s.markUpdated).mem = s.mem := rfl
@[simp] theorem State.markUpdated_v (s : State) : (s.markUpdated).v = s.v := rfl
@[simp] theorem State.markUpdated_i (s : State) : (s.markUpdated).i = s.i := rfl
@[simp] theorem State.markUpdated_pc (s : State) : (s.markUpdated).pc = s.pc := rfl
@[simp] theorem State.markUpdated_stack (s : State) : (s.markUpdated).stack = s.stack := rfl
@[simp] theorem State.markUpdated_dt (s : State) : (s.markUpdated).dt = s.dt := rfl
@[simp] theorem State.markUpdated_st (s : State) : (s.markUpdated).st = s.st := rfl
@[simp] theorem State.markUpdated_disp (s : State) : (s.markUpdated).disp = s.disp := rfl
@[simp] theorem State.markUpdated_du (s : State) : (s.markUpdated).du = true := rfl
@[simp] theorem State.markUpdated_opc (s : State) : (s.markUpdated).opc = s.opc := rfl

/-! ### State.tickTimers -/

@[simp] theorem State.tickTimers_mem (s : State) : (s.tickTimers).mem = s.mem := rfl
@[simp] theorem State.tickTimers_v (s : State) : (s.tickTimers).v = s.v := rfl
@[simp] theorem State.tickTimers_i (s : State) : (s.tickTimers).i = s.i := rfl
@[simp] theorem State.tickTimers_pc (s : State) : (s.tickTimers).pc = s.pc := rfl
@[simp] theorem State.tickTimers_stack (s : State) : (s.tickTimers).stack = s.stack := rfl
@[simp] theorem State.tickTimers_dt (s : State) : (s.tickTimers).dt = tick s.dt := rfl
@[simp] theorem State.tickTimers_st (s : State) : (s.tickTimers).st = tick s.st := rfl
@[simp] theorem State.tickTimers_disp (s : State) : (s.tickTimers).disp = s.disp := rfl
@[simp] theorem State.tickTimers_du (s : State) : (s.tickTimers).du = s.du := rfl
@[simp] theorem State.tickTimers_opc (s : State) : (s.tickTimers).opc = s.opc := rfl

/-! ### State.beginStep -/

@[simp] theorem State.beginStep_mem (s : State) (w : Word) : (s.beginStep w).mem = s.mem := rfl
@[simp] theorem State.beginStep_v (s : State) (w : Word) : (s.beginStep w).v = s.v := rfl
@[simp] theorem State.beginStep_i (s : State) (w : Word) : (s.beginStep w).i = s.i := rfl
@[simp] theorem State.beginStep_pc (s : State) (w : Word) : (s.beginStep w).pc = s.pc + 2 := rfl
@[simp] theorem State.beginStep_stack (s : State) (w : Word) : (s.beginStep w).stack = s.stack := rfl
@[simp] theorem State.beginStep_dt (s : State) (w : Word) : (s.beginStep w).dt = s.dt := rfl
@[simp] theorem State.beginStep_st (s : State) (w : Word) : (s.beginStep w).st = s.st := rfl
@[simp] theorem State.beginStep_disp (s : State) (w : Word) : (s.beginStep w).disp = s.disp := rfl
@[simp] theorem State.beginStep_du (s : State) (w : Word) : (s.beginStep w).du = false := rfl
@[simp] theorem State.beginStep_opc (s : State) (w : Word) : (s.beginStep w).opc = w := rfl

/-! ### State.memWrite1 -/

@[simp] theorem State.memWrite1_mem (s : State) (a : Nat) (b : Byte) : (s.memWrite1 a b).mem = s.mem.set a b := rfl
@[simp] theorem State.memWrite1_v (s : State) (a : Nat) (b : Byte) : (s.memWrite1 a b).v = s.v := rfl
@[simp] theorem State.memWrite1_i (s : State) (a : Nat) (b : Byte) : (s.memWrite1 a b).i = s.i := rfl
@[simp] theorem State.memWrite1_pc (s : State) (a : Nat) (b : Byte) : (s.memWrite1 a b).pc = s.pc := rfl
@[simp] theorem State.memWrite1_stack (s : State) (a : Nat) (b : Byte) : (s.memWrite1 a b).stack = s.stack := rfl
@[simp] theorem State.memWrite1_dt (s : State) (a : Nat) (b : Byte) : (s.memWrite1 a b).dt = s.dt := rfl
@[simp] theorem State.memWrite1_st (s : State) (a : Nat) (b : Byte) : (s.memWrite1 a b).st = s.st := rfl
@[simp] theorem State.memWrite1_disp (s : State) (a : Nat) (b : Byte) : (s.memWrite1 a b).disp = s.disp := rfl
@[simp] theorem State.memWrite1_du (s : State) (a : Nat) (b : Byte) : (s.memWrite1 a b).du = s.du := rfl
@[simp] theorem State.memWrite1_opc (s : State) (a : Nat) (b : Byte) : (s.memWrite1 a b).opc = s.opc := rfl

/-! ### State.memWriteBytes -/

@[simp] theorem State.memWriteBytes_mem (s : State) (a : Nat) (bs : List Byte) : (s.memWriteBytes a bs).mem = s.mem.setBytes a bs := rfl
@[simp] theorem State.memWriteBytes_v (s : State) (a : Nat) (bs : List Byte) : (s.memWriteBytes a bs).v = s.v := rfl
@[simp] theorem State.memWriteBytes_i (s : State) (a : Nat) (bs : List Byte) : (s.memWriteBytes a bs).i = s.i := rfl
@[simp] theorem State.memWriteBytes_pc (s : State) (a : Nat) (bs : List Byte) : (s.memWriteBytes a bs).pc = s.pc := rfl
@[simp] theorem State.memWriteBytes_stack (s : State) (a : Nat) (bs : List Byte) : (s.memWriteBytes a bs).stack = s.stack := rfl
@[simp] theorem State.memWriteBytes_dt (s : State) (a : Nat) (bs : List Byte) : (s.memWriteBytes a bs).dt = s.dt := rfl
@[simp] theorem State.memWriteBytes_st (s : State) (a : Nat) (bs : List Byte) : (s.memWriteBytes a bs).st = s.st := rfl
@[simp] theorem State.memWriteBytes_disp (s : State) (a : Nat) (bs : List Byte) : (s.memWriteBytes a bs).disp = s.disp := rfl
@[simp] theorem State.memWriteBytes_du (s : State) (a : Nat) (bs : List Byte) : (s.memWriteBytes a bs).du = s.du := rfl
@[simp] theorem State.memWriteBytes_opc (s : State) (a : Nat) (bs : List Byte) : (s.memWriteBytes a bs).opc = s.opc := rfl

/-! ### State.writeResultFlag -/

@[simp] theorem State.writeResultFlag_mem (s : State) (x : Reg) (b : Byte) (f : Bool) : (s.writeResultFlag x b f).mem = s.mem := rfl
@[simp] theorem State.writeResultFlag_v (s : State) (x : Reg) (b : Byte) (f : Bool) : (s.writeResultFlag x b f).v = (s.v.set x b).set vf (flagByte f) := rfl
@[simp] theorem State.writeResultFlag_i (s : State) (x : Reg) (b : Byte) (f : Bool) : (s.writeResultFlag x b f).i = s.i := rfl
@[simp] theorem State.writeResultFlag_pc (s : State) (x : Reg) (b : Byte) (f : Bool) : (s.writeResultFlag x b f).pc = s.pc := rfl
@[simp] theorem State.writeResultFlag_stack (s : State) (x : Reg) (b : Byte) (f : Bool) : (s.writeResultFlag x b f).stack = s.stack := rfl
@[simp] theorem State.writeResultFlag_dt (s : State) (x : Reg) (b : Byte) (f : Bool) : (s.writeResultFlag x b f).dt = s.dt := rfl
@[simp] theorem State.writeResultFlag_st (s : State) (x : Reg) (b : Byte) (f : Bool) : (s.writeResultFlag x b f).st = s.st := rfl
@[simp] theorem State.writeResultFlag_disp (s : State) (x : Reg) (b : Byte) (f : Bool) : (s.writeResultFlag x b f).disp = s.disp := rfl
@[simp] theorem State.writeResultFlag_du (s : State) (x : Reg) (b : Byte) (f : Bool) : (s.writeResultFlag x b f).du = s.du := rfl
@[simp] theorem State.writeResultFlag_opc (s : State) (x : Reg) (b : Byte) (f : Bool) : (s.writeResultFlag x b f).opc = s.opc := rfl

/-! ### State.skipIf -/

theorem State.skipIf_pc (s : State) (c : Bool) : (s.skipIf c).pc = if c then s.pc + 2 else s.pc := by cases c <;> rfl
@[simp] theorem State.skipIf_mem (s : State) (c : Bool) : (s.skipIf c).mem = s.mem := by cases c <;> rfl
@[simp] theorem State.skipIf_v (s : State) (c : Bool) : (s.skipIf c).v = s.v := by cases c <;> rfl
@[simp] theorem State.skipIf_i (s : State) (c : Bool) : (s.skipIf c).i = s.i := by cases c <;> rfl
@[simp] theorem State.skipIf_stack (s : State) (c : Bool) : (s.skipIf c).stack = s.stack := by cases c <;> rfl
@[simp] theorem State.skipIf_dt (s : State) (c : Bool) : (s.skipIf c).dt = s.dt := by cases c <;> rfl
@[simp] theorem State.skipIf_st (s : State) (c : Bool) : (s.skipIf c).st = s.st := by cases c <;> rfl
@[simp] theorem State.skipIf_disp (s : State) (c : Bool) : (s.skipIf c).disp = s.disp := by cases c <;> rfl
@[simp] theorem State.skipIf_du (s : State) (c : Bool) : (s.skipIf c).du = s.du := by cases c <;> rfl
@[simp] theorem State.skipIf_opc (s : State) (c : Bool) : (s.skipIf c).opc = s.opc := by cases c <;> rfl

end Sys2Proof.Machine
end

