-- ==== Sys2Proof/Laws/Registers.lean ====
section
/-! SUPPORT. Reading the general registers after each update (10_state rules R11, R12; 42_register_alu R132). -/

namespace Sys2Proof.Machine

/-- A read of a register depends on the register file alone. -/
theorem State.readV_congr {s t : State} (h : t.v = s.v) (r : Reg) : t.readV r = s.readV r := by
  rw [State.readV, State.readV, h]

/-- What a register reads as after a write: no register is hard-wired (R11). -/
theorem State.readV_writeV (s : State) (x r : Reg) (b : Byte) :
    (s.writeV x b).readV r = if r = x then b else s.readV r := by
  by_cases h : r = x
  · subst h; simp [State.readV]
  · have : x.val ≠ r.val := fun e => h (Fin.ext e.symm)
    simp [State.readV, h, this]

/-- The flag is the last write, so it is what VF holds (R132). -/
theorem State.readV_writeResultFlag (s : State) (x r : Reg) (b : Byte) (f : Bool) :
    (s.writeResultFlag x b f).readV r = if r = vf then flagByte f else if r = x then b else s.readV r := by
  rw [State.writeResultFlag, State.readV_writeV, State.readV_writeV]

@[simp] theorem State.readV_setI (s : State) (w : Word) (r : Reg) : (s.setI w).readV r = s.readV r := rfl
@[simp] theorem State.readV_setPc (s : State) (w : Word) (r : Reg) : (s.setPc w).readV r = s.readV r := rfl
@[simp] theorem State.readV_advancePc (s : State) (r : Reg) : s.advancePc.readV r = s.readV r := rfl
@[simp] theorem State.readV_push (s : State) (w : Word) (r : Reg) : (s.push w).readV r = s.readV r := rfl
@[simp] theorem State.readV_setDisp (s : State) (d : Display) (r : Reg) : (s.setDisp d).readV r = s.readV r := rfl
@[simp] theorem State.readV_markUpdated (s : State) (r : Reg) : s.markUpdated.readV r = s.readV r := rfl
@[simp] theorem State.readV_tickTimers (s : State) (r : Reg) : s.tickTimers.readV r = s.readV r := rfl
@[simp] theorem State.readV_beginStep (s : State) (w : Word) (r : Reg) : (s.beginStep w).readV r = s.readV r := rfl

@[simp] theorem State.readV_skipIf (s : State) (c : Bool) (r : Reg) : (s.skipIf c).readV r = s.readV r := by
  cases c <;> rfl

/-! ### Results and flags -/

theorem sum8_toNat (a b : Byte) : (sum8 a b).toNat = (a.toNat + b.toNat) % 256 := by
  simp [sum8]

theorem diff8_toNat (a b : Byte) : (diff8 a b).toNat = (a.toNat + 256 - b.toNat) % 256 := by
  simp [diff8]

theorem shiftRight1_toNat (a : Byte) : (shiftRight1 a).toNat = a.toNat / 2 := by
  have := a.isLt
  simp [shiftRight1]
  omega

theorem shiftLeft1_toNat (a : Byte) : (shiftLeft1 a).toNat = a.toNat * 2 % 256 := by
  simp [shiftLeft1]

theorem lowBit_toNat (a : Byte) : (flagByte (lowBit a)).toNat = a.toNat % 2 := by
  revert a; decide

theorem highBit_toNat (a : Byte) : (flagByte (highBit a)).toNat = a.toNat / 128 := by
  revert a; decide

theorem tick_toNat (t : Byte) : (tick t).toNat = t.toNat - 1 := by
  revert t; decide

end Sys2Proof.Machine
end

