-- ==== Sys2Proof/Laws/Display.lean ====
section
/-! SUPPORT. The display: what a pixel is after each operation (10_state rule R17, 43_display rules R140 to R145). -/

namespace Sys2Proof.Machine

/-- Two displays with the same pixels are the same display. -/
theorem Display.ext_pixel {d e : Display} (h : ∀ y x, y < 32 → x < 64 → d.pixel y x = e.pixel y x) : d = e := by
  apply Vector.ext
  intro y hy
  apply Vector.ext
  intro x hx
  have := h y x hy hx
  rwa [Display.pixel, Display.pixel, dif_pos ⟨hy, hx⟩, dif_pos ⟨hy, hx⟩] at this

theorem Display.pixel_blank (y x : Nat) : Display.blank.pixel y x = false := by
  simp [Display.pixel, Display.blank]

theorem Display.pixel_outside (d : Display) {y x : Nat} (h : ¬(y < 32 ∧ x < 64)) : d.pixel y x = false := by
  rw [Display.pixel, dif_neg h]

/-- A flip changes the one pixel it names, if that pixel exists. -/
theorem Display.pixel_flip (d : Display) (y x y' x' : Nat) :
    (d.flip y x).pixel y' x' = (d.pixel y' x' != (decide (y' = y) && decide (x' = x) && decide (y < 32 ∧ x < 64))) := by
  by_cases h : y < 32 ∧ x < 64
  · by_cases h' : y' < 32 ∧ x' < 64
    · rw [Display.flip, dif_pos h, Display.pixel, dif_pos h', Display.pixel, dif_pos h']
      by_cases hy : y' = y
      · subst hy
        by_cases hx : x' = x
        · subst hx; simp [h]
        · simp [hx, Ne.symm hx]
      · simp [hy, Ne.symm hy]
    · rw [Display.pixel_outside _ h', Display.pixel_outside _ h']
      by_cases hy : y' = y
      · by_cases hx : x' = x
        · subst hy; subst hx; exact absurd h h'
        · simp [hx]
      · simp [hy]
  · rw [Display.flip, dif_neg h]
    simp [h]

/-- The flat index of R17: pixel `(x, y)` is at `64*y + x`. -/
theorem Display.flat_index (d : Display) (y x : Nat) (h : x < 64) : d.flat (64 * y + x) = d.pixel y x := by
  rw [Display.flat, show (64 * y + x) / 64 = y by omega, show (64 * y + x) % 64 = x by omega]

end Sys2Proof.Machine
end

