-- ==== Sys2Proof/Laws/Memory.lean ====
section
/-! SUPPORT. Memory: every operation keeps the canonical form, a read after a write to the same address gives the value
written, and a write leaves every other address alone (20_memory rules R40, R47, R49). -/

namespace Sys2Proof.Machine

theorem Memory.wfFrom_cons (lo a : Nat) (v : Byte) (m : Memory) :
    Memory.wfFrom lo ((a, v) :: m) = true ↔ lo ≤ a ∧ a < 4096 ∧ v ≠ 0x00 ∧ Memory.wfFrom (a + 1) m = true := by
  simp only [Memory.wfFrom, Bool.and_eq_true, decide_eq_true_eq, bne_iff_ne, and_assoc]

theorem Memory.wfFrom_mono {lo lo' : Nat} {m : Memory} (h : lo' ≤ lo) (hm : Memory.wfFrom lo m = true) :
    Memory.wfFrom lo' m = true := by
  cases m with
  | nil => rfl
  | cons c m =>
    rw [Memory.wfFrom_cons] at hm ⊢
    exact ⟨h.trans hm.1, hm.2⟩

/-- An address below every listed one reads as 0x00. -/
theorem Memory.get_below {lo a : Nat} {m : Memory} (hm : Memory.wfFrom lo m = true) (h : a < lo) :
    Memory.get m a = 0x00 := by
  induction m generalizing lo with
  | nil => rfl
  | cons c m ih =>
    obtain ⟨h1, -, -, h4⟩ := (Memory.wfFrom_cons ..).1 hm
    rw [Memory.get, if_neg (by omega)]
    exact ih h4 (by omega)

/-- An address that does not exist lists nothing. -/
theorem Memory.get_beyond {lo a : Nat} {m : Memory} (hm : Memory.wfFrom lo m = true) (h : 4096 ≤ a) :
    Memory.get m a = 0x00 := by
  induction m generalizing lo with
  | nil => rfl
  | cons c m ih =>
    obtain ⟨-, h2, -, h4⟩ := (Memory.wfFrom_cons ..).1 hm
    rw [Memory.get, if_neg (by omega)]
    exact ih h4

theorem Memory.set_wfFrom {lo a : Nat} {m : Memory} (v : Byte) (hm : Memory.wfFrom lo m = true) (hlo : lo ≤ a)
    (ha : a < 4096) : Memory.wfFrom lo (Memory.set m a v) = true := by
  induction m generalizing lo with
  | nil =>
    by_cases hv : v = 0x00
    · simp [Memory.set, hv, Memory.wfFrom]
    · rw [Memory.set, if_neg hv, Memory.wfFrom_cons]
      exact ⟨hlo, ha, hv, rfl⟩
  | cons c m ih =>
    obtain ⟨b, w⟩ := c
    obtain ⟨h1, h2, h3, h4⟩ := (Memory.wfFrom_cons ..).1 hm
    rw [Memory.set]
    split
    · rename_i hlt
      split
      · exact hm
      · rename_i hv
        rw [Memory.wfFrom_cons]
        exact ⟨hlo, ha, hv, (Memory.wfFrom_cons ..).2 ⟨hlt, h2, h3, h4⟩⟩
    · split
      · rename_i heq
        split
        · exact Memory.wfFrom_mono (by omega) h4
        · rename_i hv
          rw [Memory.wfFrom_cons]
          exact ⟨hlo, ha, hv, heq ▸ h4⟩
      · rw [Memory.wfFrom_cons]
        exact ⟨h1, h2, h3, ih h4 (by omega)⟩

/-- A write to an existing address keeps memory canonical. -/
theorem Memory.set_wf {a : Nat} {m : Memory} (v : Byte) (hm : m.wf = true) (ha : a < 4096) :
    (m.set a v).wf = true :=
  Memory.set_wfFrom v hm (Nat.zero_le a) ha

/-- A write to addresses that exist keeps memory canonical. -/
theorem Memory.setBytes_wf {base : Nat} {m : Memory} (vs : List Byte) (hm : m.wf = true)
    (h : base + vs.length ≤ 4096) : (m.setBytes base vs).wf = true := by
  induction vs generalizing m base with
  | nil => exact hm
  | cons v vs ih =>
    rw [List.length_cons] at h
    exact ih (Memory.set_wf v hm (by omega)) (by omega)

theorem Memory.get_set_from {lo a : Nat} {m : Memory} (v : Byte) (hm : Memory.wfFrom lo m = true) (a' : Nat) :
    Memory.get (Memory.set m a v) a' = if a' = a then v else Memory.get m a' := by
  induction m generalizing lo with
  | nil =>
    rw [Memory.set]
    split
    · rename_i hv
      simp [Memory.get, hv]
    · simp only [Memory.get]
  | cons c m ih =>
    obtain ⟨b, w⟩ := c
    obtain ⟨h1, h2, h3, h4⟩ := (Memory.wfFrom_cons ..).1 hm
    have hbelow : ∀ k, k ≤ b → Memory.get m k = 0x00 := fun k hk => Memory.get_below h4 (by omega)
    rw [Memory.set]
    split
    · rename_i hlt
      split
      · rename_i hv
        by_cases ha : a' = a
        · rw [if_pos ha, Memory.get, if_neg (by omega), hbelow a' (by omega), hv]
        · rw [if_neg ha]
      · simp only [Memory.get]
    · split
      · rename_i heq
        split
        · rename_i hv
          by_cases ha : a' = a
          · rw [if_pos ha, hbelow a' (by omega), hv]
          · rw [if_neg ha, Memory.get, if_neg (by omega)]
        · by_cases ha : a' = a
          · simp [Memory.get, ha]
          · rw [Memory.get, if_neg ha, if_neg ha, Memory.get, if_neg (by omega)]
      · by_cases hb : a' = b
        · rw [Memory.get, if_pos hb, if_neg (by omega), Memory.get, if_pos hb]
        · rw [Memory.get, if_neg hb, ih h4, Memory.get, if_neg hb]

/-- What a byte reads as after a write. -/
theorem Memory.get_set {m : Memory} (a : Nat) (v : Byte) (hm : m.wf = true) (a' : Nat) :
    (m.set a v).get a' = if a' = a then v else m.get a' :=
  Memory.get_set_from v hm a'

/-- What a byte reads as after a write of several bytes. -/
theorem Memory.get_setBytes {base : Nat} {m : Memory} (vs : List Byte) (hm : m.wf = true)
    (h : base + vs.length ≤ 4096) (a : Nat) :
    (m.setBytes base vs).get a = if base ≤ a ∧ a < base + vs.length then vs.getD (a - base) 0x00 else m.get a := by
  induction vs generalizing m base with
  | nil => simp [Memory.setBytes, show ¬(base ≤ a ∧ a < base) by omega]
  | cons v vs ih =>
    rw [List.length_cons] at h ⊢
    rw [Memory.setBytes, ih (Memory.set_wf v hm (by omega)) (by omega), Memory.get_set base v hm]
    by_cases h1 : base + 1 ≤ a ∧ a < base + 1 + vs.length
    · rw [if_pos h1, if_pos (by omega), show a - base = (a - (base + 1)) + 1 by omega, List.getD_cons_succ]
    · rw [if_neg h1]
      by_cases h2 : a = base
      · simp [h2]
      · rw [if_neg h2, if_neg (by omega)]

theorem reset_memory_wf : State.reset.mem.wf = true := rfl

/-- `inMemory` is the bound of R45 and R46. -/
theorem inMemory_iff (a n : Nat) : inMemory a n = true ↔ a + n ≤ 4096 := by
  simp only [inMemory, decide_eq_true_eq]

end Sys2Proof.Machine
end

