-- ==== Sys2Proof/Laws/PerInstr.lean ====
section
/-! SUPPORT. Family TableRow: the word of every instruction matches its row of the opcode table, and its row is in the
table (30_encoding rule R63). -/

namespace Sys2Proof

/-- The word has the row's match value under the row's mask (R63). -/
abbrev rowFits (r : OpcodeRow) (w : Word) : Prop := w &&& r.mask = r.matchBits

/-- Under mask 0xF000 only `op` is left of a word. -/
theorem word_and_op (w : Word) : w &&& 0xF000 = BitVec.ofNat 16 (w.toNat / 4096 * 4096) := by
  apply BitVec.eq_of_getLsbD_eq
  intro k hk
  have e : w.toNat / 4096 * 4096 = (w.toNat >>> 12) <<< 12 := by
    rw [Nat.shiftRight_eq_div_pow, Nat.shiftLeft_eq]
  rw [e, BitVec.getLsbD_and, BitVec.getLsbD_ofNat, decide_eq_true hk, Bool.true_and, Nat.testBit_shiftLeft,
    Nat.testBit_shiftRight]
  rcases Nat.lt_or_ge k 12 with h | h
  · interval_cases k <;> simp
  · rw [show 12 + (k - 12) = k by omega, ← BitVec.getLsbD]
    interval_cases k <;> simp

/-- Under mask 0xF00F only `op` and `n` are left of a word. -/
theorem word_and_op_n (w : Word) : w &&& 0xF00F = BitVec.ofNat 16 (w.toNat / 4096 * 4096 + w.toNat % 16) := by
  have h : w &&& 0xF00F = (w &&& 0xF000) + (w &&& 0x000F) := by
    rw [BitVec.add_eq_or_of_and_eq_zero]
    · rw [← BitVec.and_or_distrib_left]; rfl
    · rw [show (w &&& 0xF000) &&& (w &&& 0x000F) = w &&& (0xF000#16 &&& 0x000F#16) by
        apply BitVec.eq_of_getLsbD_eq
        intro k _
        simp only [BitVec.getLsbD_and]
        cases w.getLsbD k <;> simp]
      simp
  rw [h, word_and_op]
  apply BitVec.eq_of_toNat_eq
  have hn : (w &&& 0x000F#16).toNat = w.toNat % 16 := by
    rw [BitVec.toNat_and]
    exact Nat.and_two_pow_sub_one_eq_mod w.toNat 4
  have := w.isLt
  rw [BitVec.toNat_add, BitVec.ofNat_eq_ofNat, hn]
  simp only [BitVec.toNat_ofNat]
  omega

theorem encodeNNN_and_op (op : Nat) (nnn : Imm12) (h : op < 16) :
    encodeNNN op nnn &&& 0xF000 = BitVec.ofNat 16 (op * 4096) := by
  have := nnn.isLt
  rw [word_and_op, encodeNNN, BitVec.toNat_ofNat]
  rw [show (op * 4096 + nnn.toNat) % 2 ^ 16 / 4096 * 4096 = op * 4096 by omega]

theorem encodeXNN_and_op (op : Nat) (x : Reg) (nn : Byte) (h : op < 16) :
    encodeXNN op x nn &&& 0xF000 = BitVec.ofNat 16 (op * 4096) := by
  have := nn.isLt
  have := x.isLt
  rw [word_and_op, encodeXNN, BitVec.toNat_ofNat]
  rw [show (op * 4096 + x.val * 256 + nn.toNat) % 2 ^ 16 / 4096 * 4096 = op * 4096 by omega]

theorem encodeXYN_and_op (op : Nat) (x y : Reg) (n : Nibble) (h : op < 16) :
    encodeXYN op x y n &&& 0xF000 = BitVec.ofNat 16 (op * 4096) := by
  have := n.isLt
  have := x.isLt
  have := y.isLt
  rw [word_and_op, encodeXYN, BitVec.toNat_ofNat]
  rw [show (op * 4096 + x.val * 256 + y.val * 16 + n.toNat) % 2 ^ 16 / 4096 * 4096 = op * 4096 by omega]

theorem encodeXYN_and_op_n (op : Nat) (x y : Reg) (n : Nibble) (h : op < 16) :
    encodeXYN op x y n &&& 0xF00F = BitVec.ofNat 16 (op * 4096 + n.toNat) := by
  have := n.isLt
  have := x.isLt
  have := y.isLt
  rw [word_and_op_n, encodeXYN, BitVec.toNat_ofNat]
  rw [show (op * 4096 + x.val * 256 + y.val * 16 + n.toNat) % 2 ^ 16 / 4096 * 4096 +
    (op * 4096 + x.val * 256 + y.val * 16 + n.toNat) % 2 ^ 16 % 16 = op * 4096 + n.toNat by omega]

namespace Laws.TableRow

/-- The family: the instruction's word fits the instruction's row, and the row is in the table. -/
abbrev Statement (i : Instr) : Prop := rowFits i.row (encode i) ∧ i.row ∈ opcodeTable

theorem cls : Statement .cls := by decide
theorem ret : Statement .ret := by decide
theorem jp (nnn : Imm12) : Statement (.jp nnn) :=
  ⟨encodeNNN_and_op 0x1 nnn (by decide), by simp [opcodeTable, Instr.row]⟩
theorem call (nnn : Imm12) : Statement (.call nnn) :=
  ⟨encodeNNN_and_op 0x2 nnn (by decide), by simp [opcodeTable, Instr.row]⟩
theorem seImm (x : Reg) (nn : Byte) : Statement (.seImm x nn) :=
  ⟨encodeXNN_and_op 0x3 x nn (by decide), by simp [opcodeTable, Instr.row]⟩
theorem sneImm (x : Reg) (nn : Byte) : Statement (.sneImm x nn) :=
  ⟨encodeXNN_and_op 0x4 x nn (by decide), by simp [opcodeTable, Instr.row]⟩
theorem seReg (x y : Reg) (n : Nibble) : Statement (.seReg x y n) :=
  ⟨encodeXYN_and_op 0x5 x y n (by decide), by simp [opcodeTable, Instr.row]⟩
theorem sneReg (x y : Reg) (n : Nibble) : Statement (.sneReg x y n) :=
  ⟨encodeXYN_and_op 0x9 x y n (by decide), by simp [opcodeTable, Instr.row]⟩
theorem ldImm (x : Reg) (nn : Byte) : Statement (.ldImm x nn) :=
  ⟨encodeXNN_and_op 0x6 x nn (by decide), by simp [opcodeTable, Instr.row]⟩
theorem addImm (x : Reg) (nn : Byte) : Statement (.addImm x nn) :=
  ⟨encodeXNN_and_op 0x7 x nn (by decide), by simp [opcodeTable, Instr.row]⟩
theorem ldReg (x y : Reg) : Statement (.ldReg x y) :=
  ⟨encodeXYN_and_op_n 0x8 x y 0x0 (by decide), by simp [opcodeTable, Instr.row]⟩
theorem orReg (x y : Reg) : Statement (.orReg x y) :=
  ⟨encodeXYN_and_op_n 0x8 x y 0x1 (by decide), by simp [opcodeTable, Instr.row]⟩
theorem andReg (x y : Reg) : Statement (.andReg x y) :=
  ⟨encodeXYN_and_op_n 0x8 x y 0x2 (by decide), by simp [opcodeTable, Instr.row]⟩
theorem xorReg (x y : Reg) : Statement (.xorReg x y) :=
  ⟨encodeXYN_and_op_n 0x8 x y 0x3 (by decide), by simp [opcodeTable, Instr.row]⟩
theorem addReg (x y : Reg) : Statement (.addReg x y) :=
  ⟨encodeXYN_and_op_n 0x8 x y 0x4 (by decide), by simp [opcodeTable, Instr.row]⟩
theorem sub (x y : Reg) : Statement (.sub x y) :=
  ⟨encodeXYN_and_op_n 0x8 x y 0x5 (by decide), by simp [opcodeTable, Instr.row]⟩
theorem subn (x y : Reg) : Statement (.subn x y) :=
  ⟨encodeXYN_and_op_n 0x8 x y 0x7 (by decide), by simp [opcodeTable, Instr.row]⟩
theorem shr (x y : Reg) : Statement (.shr x y) :=
  ⟨encodeXYN_and_op_n 0x8 x y 0x6 (by decide), by simp [opcodeTable, Instr.row]⟩
theorem shl (x y : Reg) : Statement (.shl x y) :=
  ⟨encodeXYN_and_op_n 0x8 x y 0xE (by decide), by simp [opcodeTable, Instr.row]⟩
theorem ldI (nnn : Imm12) : Statement (.ldI nnn) :=
  ⟨encodeNNN_and_op 0xA nnn (by decide), by simp [opcodeTable, Instr.row]⟩
theorem drw (x y : Reg) (n : Nibble) : Statement (.drw x y n) :=
  ⟨encodeXYN_and_op 0xD x y n (by decide), by simp [opcodeTable, Instr.row]⟩

end Laws.TableRow

end Sys2Proof
end

