-- ==== Sys2Proof/Laws/Sprite.lean ====
section
/-! SUPPORT. The renderer's loops, each with one lemma for the pixels it leaves and one for the collision it records
(43_display rules R141 to R147). -/

namespace Sys2Proof.Machine

theorem Canvas.pixel_drawBit (c : Canvas) (py px : Nat) (bit : Bool) (y x : Nat) :
    (c.drawBit py px bit).disp.pixel y x =
      (c.disp.pixel y x != (decide (y = py) && decide (x = px) && decide (y < 32 ∧ x < 64) && bit)) := by
  rw [Canvas.drawBit]
  split
  · rename_i h
    simp only [Config.displayW] at h
    have : decide (x = px) = false ∨ decide (y < 32 ∧ x < 64) = false := by
      by_cases hx : x = px
      · exact .inr (decide_eq_false (by omega))
      · exact .inl (decide_eq_false hx)
    rcases this with h | h <;> simp [h]
  · split
    · rename_i hb
      rw [Display.pixel_flip, hb, Bool.and_true]
      by_cases hy : y = py <;> by_cases hx : x = px <;> simp [hy, hx]
    · rename_i hb
      simp [hb]

theorem Canvas.collision_drawBit (c : Canvas) (py px : Nat) (bit : Bool) :
    (c.drawBit py px bit).collision = (c.collision || (bit && c.disp.pixel py px)) := by
  rw [Canvas.drawBit]
  split
  · rename_i h
    simp only [Config.displayW] at h
    rw [Display.pixel_outside _ (by omega), Bool.and_false, Bool.or_false]
  · split
    · rename_i hb
      rw [hb, Bool.true_and]
    · rename_i hb
      simp [hb]

/-- The last `left` bits of a row touch the columns `xo + (7 - j)`, `j < left`, each with bit `j`. -/
theorem Canvas.pixel_drawBits (b : Byte) (py xo left : Nat) (hl : left ≤ 8) (c : Canvas) (y x : Nat) :
    (Canvas.drawBits b py xo left c).disp.pixel y x =
      (c.disp.pixel y x != (decide (y = py ∧ xo ≤ x ∧ x ≤ xo + 7 ∧ 7 - (x - xo) < left ∧ y < 32 ∧ x < 64) &&
        b.getLsbD (7 - (x - xo)))) := by
  induction left generalizing c with
  | zero => simp [Canvas.drawBits]
  | succ left ih =>
    rw [Canvas.drawBits, ih (by omega), Canvas.pixel_drawBit]
    by_cases hx : x = xo + (7 - left)
    · have hj : 7 - (x - xo) = left := by omega
      rw [decide_eq_false (by omega : ¬(y = py ∧ xo ≤ x ∧ x ≤ xo + 7 ∧ 7 - (x - xo) < left ∧ y < 32 ∧ x < 64)), hj]
      by_cases hy : y = py ∧ y < 32 ∧ x < 64
      · rw [decide_eq_true (by omega : y = py ∧ xo ≤ x ∧ x ≤ xo + 7 ∧ left < left + 1 ∧ y < 32 ∧ x < 64),
          decide_eq_true hy.1, decide_eq_true hx, decide_eq_true hy.2]
        simp
      · rw [decide_eq_false (by omega : ¬(y = py ∧ xo ≤ x ∧ x ≤ xo + 7 ∧ left < left + 1 ∧ y < 32 ∧ x < 64))]
        have : decide (y = py) = false ∨ decide (y < 32 ∧ x < 64) = false := by
          by_cases h1 : y = py
          · exact .inr (decide_eq_false (by omega))
          · exact .inl (decide_eq_false h1)
        rcases this with h | h <;> simp [h]
    · rw [decide_eq_false hx]
      have : (y = py ∧ xo ≤ x ∧ x ≤ xo + 7 ∧ 7 - (x - xo) < left + 1 ∧ y < 32 ∧ x < 64) ↔
          (y = py ∧ xo ≤ x ∧ x ≤ xo + 7 ∧ 7 - (x - xo) < left ∧ y < 32 ∧ x < 64) := by omega
      simp only [this, Bool.and_false, Bool.false_and, Bool.bne_false]

theorem Canvas.collision_drawBits (b : Byte) (py xo left : Nat) (hl : left ≤ 8) (c : Canvas) :
    (Canvas.drawBits b py xo left c).collision = true ↔
      c.collision = true ∨ ∃ j, j < left ∧ b.getLsbD j = true ∧ c.disp.pixel py (xo + (7 - j)) = true := by
  induction left generalizing c with
  | zero => simp [Canvas.drawBits]
  | succ left ih =>
    have other : ∀ j, j < left → (c.drawBit py (xo + (7 - left)) (b.getLsbD left)).disp.pixel py (xo + (7 - j)) =
        c.disp.pixel py (xo + (7 - j)) := by
      intro j hj
      rw [Canvas.pixel_drawBit, decide_eq_false (by omega : ¬(xo + (7 - j) = xo + (7 - left)))]
      simp
    rw [Canvas.drawBits, ih (by omega), Canvas.collision_drawBit, Bool.or_eq_true, Bool.and_eq_true, or_assoc]
    refine or_congr_right ⟨?_, ?_⟩
    · rintro (h | ⟨j, hj, hb, hp⟩)
      · exact ⟨left, by omega, h⟩
      · exact ⟨j, by omega, hb, other j hj ▸ hp⟩
    · rintro ⟨j, hj, hb, hp⟩
      by_cases h : j = left
      · exact .inl (h ▸ ⟨hb, hp⟩)
      · exact .inr ⟨j, by omega, hb, (other j (by omega)).symm ▸ hp⟩

/-- The rows drawn are `row` to `row + left - 1`; row `r` is the byte `m.get (base + r)` at display row `yo + r`. -/
theorem Canvas.pixel_drawRows (m : Memory) (base yo xo left row : Nat) (c : Canvas) (y x : Nat) :
    (Canvas.drawRows m base yo xo left row c).disp.pixel y x =
      (c.disp.pixel y x !=
        (decide (yo + row ≤ y ∧ y < yo + row + left ∧ xo ≤ x ∧ x ≤ xo + 7 ∧ y < 32 ∧ x < 64) &&
          (m.get (base + (y - yo))).getLsbD (7 - (x - xo)))) := by
  induction left generalizing row c with
  | zero =>
    rw [Canvas.drawRows, decide_eq_false (by omega)]
    simp
  | succ left ih =>
    rw [Canvas.drawRows]
    split
    · rw [decide_eq_false (by simp only [Config.displayH] at *; omega)]
      simp
    · rename_i h
      simp only [Config.displayH] at h
      rw [ih, Canvas.drawRow, Canvas.pixel_drawBits _ _ _ _ (by omega)]
      by_cases hy : y = yo + row
      · rw [decide_eq_false (by omega : ¬(yo + (row + 1) ≤ y ∧ y < yo + (row + 1) + left ∧ _)), Bool.false_and,
          Bool.bne_false, show y - yo = row by omega]
        have : (y = yo + row ∧ xo ≤ x ∧ x ≤ xo + 7 ∧ 7 - (x - xo) < 8 ∧ y < 32 ∧ x < 64) ↔
            (yo + row ≤ y ∧ y < yo + row + (left + 1) ∧ xo ≤ x ∧ x ≤ xo + 7 ∧ y < 32 ∧ x < 64) := by omega
        simp only [this]
      · rw [decide_eq_false (by omega : ¬(y = yo + row ∧ _)), Bool.false_and, Bool.bne_false]
        have : (yo + (row + 1) ≤ y ∧ y < yo + (row + 1) + left ∧ xo ≤ x ∧ x ≤ xo + 7 ∧ y < 32 ∧ x < 64) ↔
            (yo + row ≤ y ∧ y < yo + row + (left + 1) ∧ xo ≤ x ∧ x ≤ xo + 7 ∧ y < 32 ∧ x < 64) := by omega
        simp only [this]

/-- A collision of the rows drawn: a 1 bit over a pixel that was lit on the canvas they were drawn on. -/
theorem Canvas.collision_drawRows (m : Memory) (base yo xo left row : Nat) (c : Canvas) :
    (Canvas.drawRows m base yo xo left row c).collision = true ↔
      c.collision = true ∨ ∃ y x, yo + row ≤ y ∧ y < yo + row + left ∧ xo ≤ x ∧ x ≤ xo + 7 ∧
        (m.get (base + (y - yo))).getLsbD (7 - (x - xo)) = true ∧ c.disp.pixel y x = true := by
  induction left generalizing row c with
  | zero =>
    rw [Canvas.drawRows]
    exact ⟨.inl, fun h => h.elim id fun ⟨y, x, h1, h2, _⟩ => by omega⟩
  | succ left ih =>
    rw [Canvas.drawRows]
    split
    · rename_i h
      simp only [Config.displayH] at h
      refine ⟨.inl, fun h' => h'.elim id ?_⟩
      rintro ⟨y, x, h1, -, -, -, -, hp⟩
      rw [Display.pixel_outside _ (by omega)] at hp
      cases hp
    · rw [ih, Canvas.drawRow, Canvas.collision_drawBits _ _ _ _ (by omega), or_assoc]
      have later : ∀ y x, yo + (row + 1) ≤ y →
          (Canvas.drawBits (m.get (base + row)) (yo + row) xo 8 c).disp.pixel y x = c.disp.pixel y x := by
        intro y x hy
        rw [Canvas.pixel_drawBits _ _ _ _ (by omega), decide_eq_false (by omega : ¬(y = yo + row ∧ _))]
        simp
      refine or_congr_right ⟨?_, ?_⟩
      · rintro (⟨j, hj, hb, hp⟩ | ⟨y, x, h1, h2, h3, h4, hb, hp⟩)
        · refine ⟨yo + row, xo + (7 - j), by omega, by omega, by omega, by omega, ?_, hp⟩
          rw [show yo + row - yo = row by omega, show 7 - (xo + (7 - j) - xo) = j by omega]
          exact hb
        · exact ⟨y, x, by omega, by omega, h3, h4, hb, later y x h1 ▸ hp⟩
      · rintro ⟨y, x, h1, h2, h3, h4, hb, hp⟩
        by_cases hy : y = yo + row
        · refine .inl ⟨7 - (x - xo), by omega, ?_, ?_⟩
          · rw [← hb, hy, show yo + row - yo = row by omega]
          · rw [show xo + (7 - (7 - (x - xo))) = x by omega, ← hy]
            exact hp
        · exact .inr ⟨y, x, by omega, by omega, h3, h4, hb, (later y x (by omega)).symm ▸ hp⟩

end Sys2Proof.Machine
end

