-- ==== Sys2Proof/Laws/Step.lean ====
section
/-! SUPPORT. Everything the fetch, a step, an instruction with a fault of its own, and a host operation can do, said once
each, and the frame of every state update. -/

namespace Sys2Proof.Machine

/-! ### Fetch and step -/

/-- The word a step fetches is `MemRead(PC, 2)` within the bound (R80, R82). -/
theorem fetches_iff (s : State) (w : Word) :
    Fetches s w ↔ inMemory s.pc.toNat 2 = true ∧ s.memRead2 s.pc.toNat = w := by
  rw [Fetches, inMemory_iff]
  refine and_congr (by omega) ?_
  rw [← BitVec.toNat_inj, State.memRead2, wordOfBytes_toNat, State.memRead1, State.memRead1]
  exact eq_comm

theorem fetches_unique {s : State} {w w' : Word} (h : Fetches s w) (h' : Fetches s w') : w = w' := by
  rw [fetches_iff] at h h'
  exact h.2.symm.trans h'.2

theorem fetches_of_bound {s : State} (h : s.pc.toNat ≤ 4094) : Fetches s (s.memRead2 s.pc.toNat) :=
  (fetches_iff ..).2 ⟨(inMemory_iff ..).2 (by omega), rfl⟩

/-- What the fetch of a step gives when it fetches `w`. -/
theorem fetch_of_fetches {s : State} {w : Word} (strict : Bool) (h : Fetches s w) :
    s.fetch strict =
      match decodeWord strict w with
      | .instr i => .insn w i
      | .unknownOpcode w' => .fault (.unknownOpcode w') := by
  obtain ⟨h1, h2⟩ := (fetches_iff ..).1 h
  subst h2
  exact if_pos h1

theorem fetch_outOfBounds {s : State} (strict : Bool) (h : 4094 < s.pc.toNat) :
    s.fetch strict = .fault (.outOfBounds s.pc) := by
  rw [State.fetch, if_neg]
  rw [inMemory_iff]
  omega

/-- A fetch that gives an instruction fetched and decoded its word. -/
theorem fetch_insn {s : State} {strict : Bool} {w : Word} {i : Instr} (h : s.fetch strict = .insn w i) :
    Fetches s w ∧ decodeWord strict w = .instr i := by
  rw [State.fetch] at h
  split at h
  · rename_i hb
    split at h
    · rename_i j hj
      cases h
      exact ⟨(fetches_iff ..).2 ⟨hb, rfl⟩, hj⟩
    · cases h
  · cases h

theorem completeStep_next {r : Result} {t : State} (h : completeStep r = .next t) :
    ∃ u, r = .next u ∧ t = u.tickTimers := by
  cases r with
  | next u => cases h; exact ⟨u, rfl, rfl⟩
  | fault f => cases h
  | refused q => cases h

/-- A completed step, on a machine of any parameters, is one instruction executed and then a tick (R81). -/
theorem stepWith_next {cfg : Config} {s t : State} (h : stepWith cfg s = .next t) :
    ∃ w i u, Fetches s w ∧ decodeWord cfg.strictLowNibble59 w = .instr i ∧
      execWith cfg i (s.beginStep w) = .next u ∧ t = u.tickTimers := by
  rw [stepWith] at h
  split at h
  · rename_i w i hf
    obtain ⟨u, hu, ht⟩ := completeStep_next h
    exact ⟨w, i, u, (fetch_insn hf).1, (fetch_insn hf).2, hu, ht⟩
  · cases h

/-- A completed step of the machine is one instruction executed and then a tick (R81). -/
theorem step_next {s t : State} (h : step s = .next t) :
    ∃ w i u, Fetches s w ∧ decodeWord false w = .instr i ∧ exec i (s.beginStep w) = .next u ∧ t = u.tickTimers := by
  rw [step] at h
  split at h
  · rename_i w i hf
    obtain ⟨u, hu, ht⟩ := completeStep_next h
    exact ⟨w, i, u, (fetch_insn hf).1, (fetch_insn hf).2, hu, ht⟩
  · cases h

/-- The recursion of a run, on any machine. -/
theorem run_succ (M : Host.Core) (k : Nat) (s : M.State) :
    M.run (k + 1) s =
      match M.step s with
      | .next u => M.run k u
      | .fault f => .fault f
      | .refused r => .refused r := rfl

/-- A run of one step more is a completed step and then the run (R90, R174). -/
theorem core_run_succ {k : Nat} {s t : State} (h : core.run (k + 1) s = .next t) :
    ∃ u : State, step s = .next u ∧ core.run k u = .next t := by
  have e := (run_succ core k s).symm.trans h
  cases hs : step s with
  | next u =>
    rw [show core.step s = .next u from hs] at e
    exact ⟨u, rfl, e⟩
  | fault f => rw [show core.step s = .fault f from hs] at e; cases e
  | refused r => rw [show core.step s = .refused r from hs] at e; cases e

/-! ### Instructions with a fault of their own -/

/-- `2NNN` on a machine of any depth: the fault, or the push and the jump (R102). -/
theorem callWith_cases (d : Option Nat) (nnn : Imm12) (s : State) :
    (s.stackFull d = true ∧ callWith d nnn s = .fault .stackOverflow) ∨
      (s.stackFull d = false ∧ callWith d nnn s = .next ((s.push s.pc).setPc (zext16 nnn))) := by
  rw [callWith]
  cases h : s.stackFull d
  · exact .inr ⟨rfl, rfl⟩
  · exact .inl ⟨rfl, rfl⟩

/-- `00EE`: the fault, or the pop and the jump (R100). -/
theorem execRet_cases (s : State) :
    (s.stack = [] ∧ execRet s = .fault .emptyStack) ∨
      ∃ a rest, s.stack = a :: rest ∧ execRet s = .next { s with pc := a, stack := rest } := by
  rw [execRet]
  split
  · rename_i h
    exact .inl ⟨h, rfl⟩
  · rename_i a rest h
    exact .inr ⟨a, rest, h, rfl⟩

/-- All sprite rows exist exactly when there are none or the last one does (R46). -/
theorem spriteInMemory_iff (s : State) (n : Nat) :
    s.spriteInMemory n = true ↔ n = 0 ∨ s.i.toNat + n - 1 ≤ 4095 := by
  rw [State.spriteInMemory, Bool.or_eq_true, beq_iff_eq, inMemory_iff]
  omega

/-- `DXYN`: the fault, or the sprite, then VF, then `DU` (R141). -/
theorem execDrw_cases (x y : Reg) (n : Nibble) (s : State) :
    (s.spriteInMemory n.toNat = false ∧ execDrw x y n s = .fault (.outOfBounds s.i)) ∨
      (s.spriteInMemory n.toNat = true ∧ execDrw x y n s =
        .next ((((s.setDisp (s.drawSprite x y n.toNat).disp)).writeV vf
          (flagByte (s.drawSprite x y n.toNat).collision)).markUpdated)) := by
  rw [execDrw]
  cases h : s.spriteInMemory n.toNat
  · exact .inl ⟨rfl, rfl⟩
  · exact .inr ⟨rfl, rfl⟩

theorem zext16_toNat (nnn : Imm12) : (zext16 nnn).toNat = nnn.toNat := by
  have := nnn.isLt
  rw [zext16, BitVec.toNat_setWidth]
  omega

/-! ### Host operations -/

theorem loadFont_cases (font : List Byte) (s : State) :
    (font.length = 80 ∧ loadFont font s = .next (s.memWriteBytes 0x050 font)) ∨
      (font.length ≠ 80 ∧ loadFont font s = .fault .invalidArgument) := by
  rw [loadFont]
  split
  · rename_i h
    exact .inl ⟨h, rfl⟩
  · rename_i h
    exact .inr ⟨h, rfl⟩

theorem load_cases (rom : List Byte) (s : State) :
    (rom.length ≤ 3584 ∧ load rom s = .next ((s.memWriteBytes 0x200 rom).setPc 0x0200)) ∨
      (3584 < rom.length ∧ load rom s = .fault (.outOfBounds 0x0200)) := by
  rw [load]
  split
  · rename_i h
    exact .inl ⟨h, rfl⟩
  · rename_i h
    exact .inr ⟨Nat.lt_of_not_le h, rfl⟩

theorem hostWrite_stack_cases (cfg : Config) (ws : List Word) (s : State) :
    (stackAllowed cfg ws = true ∧ hostWrite cfg (.stack ws) s = .next { s with stack := ws }) ∨
      (stackAllowed cfg ws = false ∧ hostWrite cfg (.stack ws) s = .refused .hostStackTooDeep) := by
  rw [hostWrite]
  cases h : stackAllowed cfg ws
  · exact .inr ⟨rfl, rfl⟩
  · exact .inl ⟨rfl, rfl⟩

/-- An operation leaves the next state of its outcome, or the state as it was (R86, R178). -/
theorem performWith_state_cases (cfg : Config) (op : HostOp) (s : State) :
    (∃ t, operate cfg op s = .next t ∧ (performWith cfg op s).1 = t) ∨ (performWith cfg op s).1 = s := by
  rw [performWith]
  cases h : operate cfg op s with
  | next t => exact .inl ⟨t, rfl, rfl⟩
  | fault f => exact .inr rfl
  | refused r => exact .inr rfl

/-! ### Frames -/

/-- Frames compose: what either part writes, the whole may write. -/
theorem Frame.trans {ws ws' : List Elem} {s t u : State} (h : Frame ws s t) (h' : Frame ws' t u) :
    Frame (ws ++ ws') s u := by
  intro e he
  rw [List.mem_append, not_or] at he
  have h1 := h e he.1
  have h2 := h' e he.2
  cases e with
  | mem => exact ⟨h2.1.trans h1.1, fun a => (h2.2 a).trans (h1.2 a)⟩
  | v => exact fun r => (h2 r).trans (h1 r)
  | i => exact h2.trans h1
  | pc => exact h2.trans h1
  | stack => exact h2.trans h1
  | dt => exact h2.trans h1
  | st => exact h2.trans h1
  | disp => exact h2.trans h1
  | du => exact h2.trans h1
  | opc => exact h2.trans h1

/-- A frame may be said with more elements than it writes. -/
theorem Frame.mono {ws ws' : List Elem} {s t : State} (h : Frame ws s t) (hw : ∀ e ∈ ws, e ∈ ws') : Frame ws' s t :=
  fun e he => h e fun hm => he (hw e hm)

/-- A frame from the equality of the fields not written. -/
theorem Frame.of_fields {ws : List Elem} {s t : State}
    (mem : .mem ∉ ws → t.mem = s.mem) (v : .v ∉ ws → t.v = s.v) (i : .i ∉ ws → t.i = s.i)
    (pc : .pc ∉ ws → t.pc = s.pc) (stack : .stack ∉ ws → t.stack = s.stack) (dt : .dt ∉ ws → t.dt = s.dt)
    (st : .st ∉ ws → t.st = s.st) (disp : .disp ∉ ws → t.disp = s.disp) (du : .du ∉ ws → t.du = s.du)
    (opc : .opc ∉ ws → t.opc = s.opc) : Frame ws s t := by
  intro e he
  cases e with
  | mem => exact ⟨mem he, fun a => by rw [State.memRead1, State.memRead1, mem he]⟩
  | v => exact State.readV_congr (v he)
  | i => exact i he
  | pc => exact pc he
  | stack => exact stack he
  | dt => exact dt he
  | st => exact st he
  | disp => exact disp he
  | du => exact du he
  | opc => exact opc he

theorem Frame.refl (s : State) : Frame [] s s := by
  apply Frame.of_fields <;> exact fun _ => rfl

theorem Frame.writeV (s : State) (x : Reg) (b : Byte) : Frame [.v] s (s.writeV x b) := by
  apply Frame.of_fields <;> simp

theorem Frame.writeResultFlag (s : State) (x : Reg) (b : Byte) (f : Bool) : Frame [.v] s (s.writeResultFlag x b f) := by
  apply Frame.of_fields <;> simp

theorem Frame.setPc (s : State) (w : Word) : Frame [.pc] s (s.setPc w) := by
  apply Frame.of_fields <;> simp

theorem Frame.skipIf (s : State) (c : Bool) : Frame [.pc] s (s.skipIf c) := by
  cases c <;> apply Frame.of_fields <;> simp [State.skipIf]

theorem Frame.setI (s : State) (w : Word) : Frame [.i] s (s.setI w) := by
  apply Frame.of_fields <;> simp

theorem Frame.memWriteBytes (s : State) (a : Nat) (bs : List Byte) : Frame [.mem] s (s.memWriteBytes a bs) := by
  apply Frame.of_fields <;> simp

theorem Frame.memWrite1 (s : State) (a : Nat) (b : Byte) : Frame [.mem] s (s.memWrite1 a b) := by
  apply Frame.of_fields <;> simp

theorem Frame.beginStep (s : State) (w : Word) : Frame [.pc, .du, .opc] s (s.beginStep w) := by
  apply Frame.of_fields <;> simp

theorem Frame.tickTimers (s : State) : Frame [.dt, .st] s s.tickTimers := by
  apply Frame.of_fields <;> simp

end Sys2Proof.Machine
end

