-- ==== Sys2Proof/Tests/Slice0.lean ====
section
/-! SUPPORT. The model's own tests. Expected values come from 95_test_vectors (the vector's id stands in each comment) or
from the encodings of 30_encoding written out bit by bit. The witnesses at the end show, for every statement with
hypotheses, a concrete case that meets them. -/

namespace Sys2Proof.Tests

open Sys2Proof Sys2Proof.Machine

/-! ### Helpers -/

/-- The reset state with a word at 0x200 (the convention of 95_test_vectors). -/
def put (w : Nat) : State := State.reset.withFetchWord 16 w

/-- The step completes in a state that meets `p`. -/
def ok (r : Result) (p : State → Bool) : Bool :=
  match r with
  | .next t => p t
  | .fault _ => false
  | .refused _ => false

/-- The step faults with `f`. -/
def faults (r : Result) (f : Fault) : Bool :=
  match r with
  | .next _ => false
  | .fault g => g == f
  | .refused _ => false

/-- The lit pixels among those named, as (x, y), and none else in the two rows named. -/
def lit (t : State) (ps : List (Nat × Nat)) : Bool := ps.all fun p => t.disp.pixel p.2 p.1

/-- None of the pixels named is lit. -/
def unlit (t : State) (ps : List (Nat × Nat)) : Bool := ps.all fun p => !t.disp.pixel p.2 p.1

/-- A display with the pixels named, as (x, y). -/
def litDisplay (ps : List (Nat × Nat)) : Display := ps.foldl (fun d p => d.flip p.2 p.1) Display.blank

/-! ### WellFormed: the one check refuses an ill-formed term -/

theorem test_wellFormed_refuses_seReg : (Instr.seReg 1 2 7).wellFormed true = false := by decide
theorem test_wellFormed_refuses_sneReg : (Instr.sneReg 1 2 7).wellFormed true = false := by decide
theorem test_wellFormed_default_accepts : WellFormed (.seReg 1 2 7) ∧ WellFormed (.sneReg 1 2 15) := by decide

/-! ### Decoding of words written out from the spec's encodings -/

-- E: 0000 0000 1110 0000
theorem test_decode_cls : decodeWord false 0b0000000011100000 = .instr .cls := by decide
-- E: 0000 0000 1110 1110
theorem test_decode_ret : decodeWord false 0b0000000011101110 = .instr .ret := by decide
-- NNN, op 1, nnn 0xABC: 0001 1010 1011 1100 (K1)
theorem test_decode_jp : decodeWord false 0b0001101010111100 = .instr (.jp 0xABC) := by decide
-- NNN, op 2, nnn 0x20E: 0010 0010 0000 1110 (E4)
theorem test_decode_call : decodeWord false 0b0010001000001110 = .instr (.call 0x20E) := by decide
-- XNN, op 3, x A, nn 0x42: 0011 1010 0100 0010 (K10)
theorem test_decode_seImm : decodeWord false 0b0011101001000010 = .instr (.seImm 10 0x42) := by decide
-- XNN, op 4, x A, nn 0x42: 0100 1010 0100 0010 (E6)
theorem test_decode_sneImm : decodeWord false 0b0100101001000010 = .instr (.sneImm 10 0x42) := by decide
-- XY, op 5, x 1, y 2, n 7: 0101 0001 0010 0111 (X14)
theorem test_decode_seReg : decodeWord false 0b0101000100100111 = .instr (.seReg 1 2 7) := by decide
-- XY, op 9, x 1, y 2, n 0: 1001 0001 0010 0000 (E12)
theorem test_decode_sneReg : decodeWord false 0b1001000100100000 = .instr (.sneReg 1 2 0) := by decide
-- XNN, op 6, x 1, nn 0xFF: 0110 0001 1111 1111 (E8)
theorem test_decode_ldImm : decodeWord false 0b0110000111111111 = .instr (.ldImm 1 0xFF) := by decide
-- XNN, op 7, x 0, nn 0xFF: 0111 0000 1111 1111 (E9)
theorem test_decode_addImm : decodeWord false 0b0111000011111111 = .instr (.addImm 0 0xFF) := by decide
-- XY, op 8, x 2, y 3, n 0: 1000 0010 0011 0000
theorem test_decode_ldReg : decodeWord false 0b1000001000110000 = .instr (.ldReg 2 3) := by decide
-- XY, op 8, x 1, y 2, n 1: 1000 0001 0010 0001 (A5)
theorem test_decode_orReg : decodeWord false 0b1000000100100001 = .instr (.orReg 1 2) := by decide
-- XY, op 8, x 1, y 2, n 2: 1000 0001 0010 0010 (A6)
theorem test_decode_andReg : decodeWord false 0b1000000100100010 = .instr (.andReg 1 2) := by decide
-- XY, op 8, x 1, y 2, n 3: 1000 0001 0010 0011 (A7)
theorem test_decode_xorReg : decodeWord false 0b1000000100100011 = .instr (.xorReg 1 2) := by decide
-- XY, op 8, x 0, y 1, n 4: 1000 0000 0001 0100 (E10)
theorem test_decode_addReg : decodeWord false 0b1000000000010100 = .instr (.addReg 0 1) := by decide
-- XY, op 8, x 1, y 2, n 5: 1000 0001 0010 0101 (A19)
theorem test_decode_sub : decodeWord false 0b1000000100100101 = .instr (.sub 1 2) := by decide
-- XY, op 8, x 1, y 2, n 7: 1000 0001 0010 0111 (A25)
theorem test_decode_subn : decodeWord false 0b1000000100100111 = .instr (.subn 1 2) := by decide
-- XY, op 8, x F, y 2, n 6: 1000 1111 0010 0110 (A32)
theorem test_decode_shr : decodeWord false 0b1000111100100110 = .instr (.shr 15 2) := by decide
-- XY, op 8, x 1, y 2, n E: 1000 0001 0010 1110 (A34)
theorem test_decode_shl : decodeWord false 0b1000000100101110 = .instr (.shl 1 2) := by decide
-- NNN, op A, nnn 0x20C: 1010 0010 0000 1100 (E13)
theorem test_decode_ldI : decodeWord false 0b1010001000001100 = .instr (.ldI 0x20C) := by decide
-- XYN, op D, x 0, y 1, n 2: 1101 0000 0001 0010 (E14)
theorem test_decode_drw : decodeWord false 0b1101000000010010 = .instr (.drw 0 1 2) := by decide

-- X1, X2, X3, X4, X5
theorem test_decode_zero_family_refused :
    [0x0000, 0x00F0, 0x01E0, 0x00E1, 0x0FEE].all (fun w => decodeWord false w == .unknownOpcode w) = true := by decide
-- X6 to X13
theorem test_decode_illegal_refused :
    [0x8128, 0x812F, 0x812D, 0xB123, 0xC0FF, 0xE09E, 0xF015, 0xFFFF].all
      (fun w => decodeWord false w == .unknownOpcode w) = true := by decide
-- X14 with STRICT_LOW_NIBBLE_59 = true
theorem test_decode_strict : decodeWord true 0x5127 = .unknownOpcode 0x5127 := by decide

-- the host's two views: table bits and the fetch (F7: bytes 61 23)
theorem test_table_word : decodeTableWord 16 0x6123 = some (.ldImm 1 0x23) := by decide
theorem test_table_word_short : decodeTableWord 8 0xFFE0 = some .cls := by decide
theorem test_fetch_word_bytes : (put 0x6123).mem = [(0x200, 0x61), (0x201, 0x23)] := by decide

/-! ### Fetch, faults and timers -/

-- X1, H10: the first step after reset
theorem test_reset_step : perform .step State.reset = (State.reset, .fault (.unknownOpcode 0x0000)) := by decide
-- F1, F3, F4
theorem test_fetch_bound : [0x0FFF, 0x1000, 0xFFFF].all
    (fun w => faults (step { State.reset with pc := w }) (.outOfBounds w)) = true := by decide
-- F2: 4094 is the last fetch address, and the next step is out of bounds
theorem test_fetch_last : ok (step (({ State.reset with pc := 0x0FFE }).withFetchWord 16 0x6112))
    (fun t => t.readV 1 == 0x12 && t.pc == 0x1000 && faults (step t) (.outOfBounds 0x1000)) = true := by decide
-- F5: odd PC
theorem test_fetch_odd : ok (step (({ State.reset with pc := 0x0201 }).withFetchWord 16 0x6123))
    (fun t => t.readV 1 == 0x23 && t.pc == 0x0203 && t.opc == 0x6123) = true := by decide
-- X15: a fault changes nothing
theorem test_fault_changes_nothing :
    (let s := { State.reset with du := true, opc := 0xD012, dt := 9, st := 9 }
     perform .step s = (s, .fault (.unknownOpcode 0x0000))) := by decide
-- S11, T1: 8000 with DT = 5, ST = 15 (one step)
theorem test_timers_tick : ok (step { put 0x8000 with dt := 5, st := 15 }) (fun t => t.dt == 4 && t.st == 14) = true := by
  decide
-- T3, T4: floored at zero, independent
theorem test_timers_floor : ok (step { put 0x6000 with dt := 1, st := 0 }) (fun t => t.dt == 0 && t.st == 0) = true := by
  decide

/-! ### Control flow -/

-- K7: last in, first out
theorem test_ret_pops : ok (step { put 0x00EE with stack := [0x0FFF, 0x0300] })
    (fun t => t.pc == 0x0FFF && t.stack == [0x0300]) = true := by decide
-- K9
theorem test_ret_empty : faults (step { put 0x00EE with dt := 3 }) .emptyStack = true := by decide
-- K1
theorem test_jp : ok (step (put 0x1ABC)) (fun t => t.pc == 0x0ABC && t.stack == []) = true := by decide
-- K2
theorem test_jp_last : ok (step (put 0x1FFF)) (fun t => faults (step t) (.outOfBounds 0x0FFF)) = true := by decide
-- K4
theorem test_call : ok (step (put 0x2ABC)) (fun t => t.pc == 0x0ABC && t.stack == [0x0202]) = true := by decide
-- K4 with a finite STACK_DEPTH of 1 and one entry
theorem test_call_full : faults (stepWith ⟨some 1, false⟩ { put 0x2ABC with stack := [0x0300] }) .stackOverflow = true := by
  decide
-- K10, K11
theorem test_seImm : ok (step ((put 0x3A42).writeV 10 0x42)) (fun t => t.pc == 0x0204) = true := by decide
theorem test_seImm_not : ok (step ((put 0x3A42).writeV 10 0x43)) (fun t => t.pc == 0x0202) = true := by decide
-- K12, K13
theorem test_sneImm_not : ok (step ((put 0x4A42).writeV 10 0x42)) (fun t => t.pc == 0x0202) = true := by decide
theorem test_sneImm : ok (step ((put 0x4A42).writeV 10 0x43)) (fun t => t.pc == 0x0204) = true := by decide
-- X14, K15
theorem test_seReg : ok (step (((put 0x5127).writeV 1 7).writeV 2 7)) (fun t => t.pc == 0x0204 && t.opc == 0x5127) = true := by
  decide
theorem test_seReg_not : ok (step (((put 0x5120).writeV 1 7).writeV 2 8)) (fun t => t.pc == 0x0202) = true := by decide
-- K17, K19
theorem test_sneReg : ok (step (((put 0x9120).writeV 1 7).writeV 2 8)) (fun t => t.pc == 0x0204) = true := by decide
theorem test_sneReg_same : ok (step ((put 0x9330).writeV 3 9)) (fun t => t.pc == 0x0202) = true := by decide

/-! ### Registers, arithmetic and logic -/

-- S8, A1
theorem test_ldImm : ok (step (put 0x6123)) (fun t => t.readV 1 == 0x23 && t.pc == 0x0202) = true := by decide
theorem test_ldImm_vf : ok (step (put 0x6F55)) (fun t => t.readV 15 == 0x55) = true := by decide
-- S9, A2
theorem test_addImm : ok (step ((put 0x7123).writeV 1 0xF0)) (fun t => t.readV 1 == 0x13) = true := by decide
theorem test_addImm_no_flag : ok (step (((put 0x7001).writeV 0 0xFF).writeV 15 0x5A))
    (fun t => t.readV 0 == 0x00 && t.readV 15 == 0x5A) = true := by decide
-- A4, A10
theorem test_ldReg : ok (step ((((put 0x8120).writeV 1 0x11).writeV 2 0x22).writeV 15 0x5A))
    (fun t => t.readV 1 == 0x22 && t.readV 2 == 0x22 && t.readV 15 == 0x5A) = true := by decide
theorem test_ldReg_vf : ok (step (((put 0x8F10).writeV 15 0x77).writeV 1 0x12)) (fun t => t.readV 15 == 0x12) = true := by
  decide
-- A5, A6, A7, A8
theorem test_orReg : ok (step ((((put 0x8121).writeV 1 0xF0).writeV 2 0x3C).writeV 15 0x5A))
    (fun t => t.readV 1 == 0xFC && t.readV 15 == 0x5A) = true := by decide
theorem test_andReg : ok (step ((((put 0x8122).writeV 1 0xF0).writeV 2 0x3C).writeV 15 0x5A))
    (fun t => t.readV 1 == 0x30 && t.readV 15 == 0x5A) = true := by decide
theorem test_xorReg : ok (step ((((put 0x8123).writeV 1 0xF0).writeV 2 0x3C).writeV 15 0x5A))
    (fun t => t.readV 1 == 0xCC && t.readV 15 == 0x5A) = true := by decide
theorem test_xorReg_same : ok (step ((put 0x8113).writeV 1 0xF0)) (fun t => t.readV 1 == 0x00) = true := by decide
-- A13, A16
theorem test_addReg_no_carry : ok (step ((((put 0x8124).writeV 1 0xFE).writeV 2 0x01).writeV 15 0x01))
    (fun t => t.readV 1 == 0xFF && t.readV 15 == 0x00) = true := by decide
theorem test_addReg_vf : ok (step (((put 0x8F14).writeV 15 0xF0).writeV 1 0x20))
    (fun t => t.readV 15 == 0x01 && t.readV 1 == 0x20) = true := by decide
-- A21, A24
theorem test_sub_borrow : ok (step ((((put 0x8125).writeV 1 0x01).writeV 2 0x10).writeV 15 0x01))
    (fun t => t.readV 1 == 0xF1 && t.readV 15 == 0x00) = true := by decide
theorem test_sub_from_vf : ok (step (((put 0x81F5).writeV 1 0x05).writeV 15 0x03))
    (fun t => t.readV 1 == 0x02 && t.readV 15 == 0x01) = true := by decide
-- A25, A29
theorem test_subn : ok (step (((put 0x8127).writeV 1 0x01).writeV 2 0x10))
    (fun t => t.readV 1 == 0x0F && t.readV 15 == 0x01) = true := by decide
theorem test_subn_vf : ok (step (((put 0x8F27).writeV 15 0x05).writeV 2 0x03)) (fun t => t.readV 15 == 0x00) = true := by
  decide
-- A30, A33
theorem test_shr : ok (step (((put 0x8126).writeV 1 0x05).writeV 2 0xAA))
    (fun t => t.readV 1 == 0x02 && t.readV 15 == 0x01 && t.readV 2 == 0xAA) = true := by decide
theorem test_shr_vf : ok (step ((put 0x8F26).writeV 15 0xFE)) (fun t => t.readV 15 == 0x00) = true := by decide
-- A35, A36
theorem test_shl : ok (step ((((put 0x812E).writeV 1 0x41).writeV 2 0xAA).writeV 15 0x01))
    (fun t => t.readV 1 == 0x82 && t.readV 15 == 0x00 && t.readV 2 == 0xAA) = true := by decide
theorem test_shl_vf : ok (step ((put 0x8FFE).writeV 15 0x80)) (fun t => t.readV 15 == 0x01) = true := by decide
-- A38
theorem test_ldI : ok (step { put 0xA123 with i := 0x0FFF }) (fun t => t.i == 0x0123) = true := by decide

/-! ### Display -/

-- P1
theorem test_cls : ok (step { (put 0x00E0).writeV 15 7 with disp := litDisplay [(0, 0), (10, 10), (63, 31)] })
    (fun t => t.du && t.readV 15 == 7 && unlit t [(0, 0), (10, 10), (63, 31)]) = true := by decide
-- P10: the origin wraps and the sprite is drawn at (63, 31)
theorem test_drw_origin_and_clip : ok (step { (((put 0xD011).writeV 0 0xFF).writeV 1 0xFF).memWrite1 0x300 0xC0 with i := 0x300 })
    (fun t => t.du && t.readV 15 == 0 && lit t [(63, 31)] && unlit t [(0, 31), (0, 0), (62, 31), (63, 0)]) = true := by decide
-- P16: the second row lies outside memory
theorem test_drw_bound :
    faults (step { (put 0xD012).memWrite1 0xFFF 0xFF with i := 0x0FFF }) (.outOfBounds 0x0FFF) = true := by decide
-- P4: one of two sprite bits collides
theorem test_drw_collision : ok (step { (put 0xD011).memWrite1 0x300 0xC0 with i := 0x300, disp := litDisplay [(1, 0), (5, 5)] })
    (fun t => t.readV 15 == 1 && lit t [(0, 0), (5, 5)] && unlit t [(1, 0)]) = true := by decide

/-! ### Host operations -/

-- H2, H4
theorem test_loadFont_short : perform (.loadFont []) State.reset = (State.reset, .fault .invalidArgument) := by decide
-- H8, the second Load on the memory of the first
theorem test_load_keeps_rest : (performAll [.load [0x60, 0x01, 0x61, 0x02], .load [0x12, 0x00]] State.reset).mem =
    [(0x200, 0x12), (0x202, 0x61), (0x203, 0x02)] := by decide
-- R173: a read of what was written
theorem test_host_write_read :
    (perform (.read (.mem 0xFFF)) (perform (.write (.mem 0xFFF 0xAB)) State.reset).1).2 = .value (.byte 0xAB) := by decide

/-! ### Witnesses: a case that meets the hypotheses of each statement that has any -/

/-- A state that fetches the word and completes its step. -/
def runs (s : State) (w : Word) : Prop := Fetches s w ∧ ∃ t, step s = .next t

-- the states most witnesses use
theorem runs_ldImm : runs (put 0x6123) 0x6123 := ⟨by decide, _, rfl⟩
theorem runs_cls : runs (put 0x00E0) 0x00E0 := ⟨by decide, _, rfl⟩
theorem runs_drw : runs (put 0xD010) 0xD010 := ⟨by decide, _, rfl⟩
theorem runs_skip : runs (put 0x3000) 0x3000 := ⟨by decide, _, rfl⟩
theorem runs_call_last : runs (({ State.reset with pc := 0x0FFE }).withFetchWord 16 0x2FFF) 0x2FFF :=
  ⟨by decide, _, rfl⟩
theorem runs_jp_self : runs (put 0x1200) 0x1200 := ⟨by decide, _, rfl⟩

theorem witness_DecodeOfEncodeIsInstruction :
    (Instr.seReg 15 15 0).wellFormed true = true ∧ (Instr.sneReg 0 15 15).wellFormed false = true := by decide
theorem witness_EncodeOfDecodeIsWord :
    decodeWord true 0x5FF0 = .instr (.seReg 15 15 0) ∧ decodeWord false 0x9FFF = .instr (.sneReg 15 15 15) := by decide
theorem witness_WordMatchesOnlyItsTableRow :
    decodeWord false 0x8FFE = .instr (.shl 15 15) ∧ (Instr.shl 15 15).row ∈ opcodeTable ∧
      ∀ i, decodeWord false 0x8FFF ≠ .instr i :=
  ⟨by decide, by decide, fun i h => by rw [show decodeWord false 0x8FFF = .unknownOpcode 0x8FFF by decide] at h; cases h⟩
theorem witness_ZeroFamilyMatchedOnWholeWord :
    (0x0FFF : Word).toNat ≤ 0x0FFF ∧ (0x0FFF : Word) ≠ 0x00E0 ∧ (0x0FFF : Word) ≠ 0x00EE ∧
      Fetches (put 0x0FFF) 0x0FFF ∧ Fetches State.reset 0x0000 := by decide
theorem witness_LowNibbleOfRegisterSkipsIgnored : (15 : Nibble) ≠ 0 ∧ (1 : Nibble) ≠ 0 := by decide
theorem witness_IllegalWordsFault :
    ([0x0000, 0x0FFF, 0x8008, 0x8FFD, 0x800F, 0xB000, 0xCFFF, 0xE000, 0xFFFF].all fun w =>
      decodeWord false w == .unknownOpcode w) = true ∧ Fetches (put 0xFFFF) 0xFFFF := by decide
theorem witness_StepRunsDecodedInstruction :
    Fetches (put 0x6123) 0x6123 ∧ decodeWord false 0x6123 = .instr (.ldImm 1 0x23) := by decide
theorem witness_FetchBoundIs4094 :
    4094 < ({ State.reset with pc := 0x0FFF } : State).pc.toNat ∧ decodeWord false 0x0000 = .unknownOpcode 0x0000 ∧
      Fetches { State.reset with pc := 0x0FFE } 0x0000 ∧
      Fetches (({ State.reset with pc := 0x0FFE } : State).withFetchWord 16 0x1FFF) 0x1FFF ∧
      decodeWord false 0x1FFF = .instr (.jp 0xFFF) ∧ ok (exec (.jp 0xFFF) State.reset) (fun _ => true) = true := by decide
theorem witness_FaultingOperationChangesNothing :
    (perform .step State.reset).2 = .fault (.unknownOpcode 0x0000) ∧
      (perform (.loadFont []) State.reset).2 = .fault .invalidArgument ∧
      faults (step State.reset) (.unknownOpcode 0x0000) = true := by decide
theorem witness_FaultRepeatsUntilHostActs : step State.reset = .fault (.unknownOpcode 0x0000) := rfl
theorem witness_DisplayUpdatedAfterClearOrDrawOnly :
    runs (put 0x00E0) 0x00E0 ∧ runs (put 0xD010) 0xD010 ∧ runs (put 0x6123) 0x6123 :=
  ⟨runs_cls, runs_drw, runs_ldImm⟩
theorem witness_CurrentOpcodeIsFetchedWord :
    (∃ t, step (put 0x6123) = .next t) ∧ (perform .step State.reset).2 = .fault (.unknownOpcode 0x0000) :=
  ⟨runs_ldImm.2, by decide⟩
theorem witness_PcAdvancesByTwo :
    runs (put 0x6123) 0x6123 ∧ (0x6123 : Word) ≠ 0x00EE ∧ (0x6123 : Word).toNat / 4096 ∉ [0x1, 0x2, 0x3, 0x4, 0x5, 0x9] ∧
      runs (put 0x3000) 0x3000 ∧ (0x3000 : Word).toNat / 4096 ∈ [0x3, 0x4, 0x5, 0x9] :=
  ⟨runs_ldImm, by decide, by decide, runs_skip, by decide⟩
theorem witness_StepNeverChangesMemory : ∃ t, stepWith ⟨some 1, true⟩ (put 0x2ABC) = .next t := ⟨_, rfl⟩
theorem witness_StepFaultsInFixedOrder :
    stepFault Config.machine State.reset = some (.unknownOpcode 0x0000) ∧
      stepFault Config.machine (put 0x6123) = none ∧ stepFault ⟨some 0, false⟩ (put 0x2ABC) = some .stackOverflow := by
  decide
theorem witness_StackOverflowOnlyAtFiniteDepth :
    (put 0x2ABC).stack.length = 0 ∧ (put 0x2ABC).stack.length < 1 ∧ Fetches (put 0x2ABC) 0x2ABC ∧
      (0x2ABC : Word).toNat / 4096 = 0x2 := by decide
theorem witness_FiniteStackDepthIsNeverExceeded :
    (⟨some 1, false⟩ : Config).stackDepth = some 1 ∧ ({ State.reset with stack := [0x0300] } : State).stack.length ≤ 1 := by
  decide
theorem witness_InstructionsWriteOnlyTheirElements :
    (∃ t, exec (.drw 0 1 15) State.reset = .next t) ∧ (14 : Reg) ∉ instrWritesRegs (.drw 0 1 15) :=
  ⟨⟨_, rfl⟩, by decide⟩
theorem witness_StepWritesOnlyItsElements :
    runs (put 0x6123) 0x6123 ∧ decodeWord false 0x6123 = .instr (.ldImm 1 0x23) := ⟨runs_ldImm, by decide⟩
theorem witness_StepKeepsInvariant : (put 0x6123).Inv ∧ ∃ t, step (put 0x6123) = .next t :=
  ⟨⟨by decide, by decide, by decide, fun a h => nomatch (show a ∈ ([] : List Word) from h)⟩, runs_ldImm.2⟩
theorem witness_HostOperationsKeepMemoryCanonical : (put 0x6123).mem.wf = true := by decide
theorem witness_ReturnPopsOrFaultsEmptyStack :
    ({ put 0x00EE with stack := [0x0FFF] } : State).stack = 0x0FFF :: [] ∧ (put 0x00EE).stack = [] ∧
      Fetches (put 0x00EE) 0x00EE ∧ Fetches { put 0x00EE with stack := [0x0FFF] } 0x00EE ∧
      4094 < (0x0FFF : Word).toNat := by decide
theorem witness_JumpSetsPc : Fetches (put 0x1FFF) 0x1FFF := by decide
theorem witness_CallPushesReturnAddress :
    runs (({ State.reset with pc := 0x0FFE }).withFetchWord 16 0x2FFF) 0x2FFF ∧ (0x2FFF : Word).toNat / 4096 = 0x2 :=
  ⟨runs_call_last, by decide⟩
theorem witness_ReturnUndoesCall : ({ State.reset with stack := [0x0200] } : State).stack =
    ((State.reset.push State.reset.pc).setPc (zext16 0x300)).stack := by decide
theorem witness_SkipOnImmediate : State.reset.readV 15 = 0x00 ∧ State.reset.readV 15 ≠ 0xFF ∧
    Fetches (({ State.reset with pc := 0x0FFE } : State).withFetchWord 16 0x3F00)
      (BitVec.ofNat 16 (0x3000 + (15 : Reg).val * 256 + (0x00 : Byte).toNat)) ∧
    (({ State.reset with pc := 0x0FFE } : State).withFetchWord 16 0x3F00).pc = 0x0FFE ∧
    (({ State.reset with pc := 0x0FFE } : State).withFetchWord 16 0x3F00).readV 15 = 0x00 := by decide
theorem witness_SkipOnRegister :
    State.reset.readV 0 = State.reset.readV 15 ∧ (State.reset.writeV 1 7).readV 0 ≠ (State.reset.writeV 1 7).readV 1 ∧
      (0x5001 : Word).toNat / 4096 ∈ [0x5, 0x9] ∧ (0x5001 : Word).toNat % 16 ≠ 0 ∧
      (0x9FFF : Word).toNat / 4096 ∈ [0x5, 0x9] ∧ (0x9FFF : Word).toNat % 16 ≠ 0 := by decide
theorem witness_SelfJumpIdles : Fetches (put 0x1200) 0x1200 ∧ (0x1200 : Word).toNat = 0x1000 + (put 0x1200).pc.toNat := by
  decide
/-- For the statements about one destination register and VF: a destination other than VF, and a register other than
both. -/
theorem witness_register_statements : (1 : Reg) ≠ 15 ∧ (0 : Reg) ≠ 1 ∧ (0 : Reg) ≠ 15 := by decide
theorem witness_SpriteRowsMustLieInMemory :
    (1 ≤ (2 : Nibble).toNat ∧ 4095 < (0x0FFF : Word).toNat + (2 : Nibble).toNat - 1) ∧
      (0x0FF1 : Word).toNat + (15 : Nibble).toNat - 1 ≤ 4095 ∧ (0 : Nibble).toNat = 0 ∧
      Fetches { put 0xD012 with i := 0x0FFF } 0xD012 ∧ decodeWord false 0xD012 = .instr (.drw 0 1 2) := by decide
theorem witness_DrawXorsSpriteOntoDisplay :
    State.reset.i.toNat + (15 : Nibble).toNat - 1 ≤ 4095 ∧
      spriteCollides { State.reset.memWrite1 0 0x80 with disp := litDisplay [(0, 0)] } 0 1 1 ∧
      ¬ spriteCollides State.reset 0 1 0 :=
  ⟨by decide, ⟨0, 0, by decide, by decide, by decide, by decide⟩, fun ⟨py, px, _, _, _, h⟩ => by
    simp [State.reset, Display.pixel, Display.blank] at h⟩
theorem witness_SpriteIsClippedNotWrapped :
    (∃ t, exec (.drw 0 1 15) ((State.reset.writeV 0 63).writeV 1 31) = .next t) ∧
      (∀ py px, State.reset.disp.pixel py px = false) ∧ (63 ≤ min (63 + 7) 63 ∧ 31 + 1 ≤ min (31 + 15) 32) :=
  ⟨⟨_, rfl⟩, fun py px => Display.pixel_blank py px, by decide⟩
theorem witness_CollisionMeansLitPixelTurnedOff : (∃ t, exec (.drw 15 15 1) State.reset = .next t) ∧
    spriteBit State.reset 15 15 1 31 63 = false := ⟨⟨_, rfl⟩, by decide⟩
theorem witness_DrawingTwiceRestoresDisplay : ∃ t v : State, exec (.drw 0 1 1) State.reset = .next t ∧
    t.mem = State.reset.mem ∧ t.i = State.reset.i ∧ t.readV 0 = State.reset.readV 0 ∧ t.readV 1 = State.reset.readV 1 ∧
    exec (.drw 0 1 1) t = .next v := ⟨_, _, rfl, rfl, rfl, by decide, by decide, rfl⟩
theorem witness_TimersTickOncePerCompletedStep :
    (∃ t, step (put 0x6123) = .next t) ∧ (perform .step State.reset).2 = .fault (.unknownOpcode 0x0000) :=
  ⟨runs_ldImm.2, by decide⟩
theorem witness_TimersAfterManySteps : ∃ t, core.run 1 { put 0x1200 with dt := 2, st := 1 } = .next t := ⟨_, rfl⟩
theorem witness_LoadFontWritesFontRegion :
    State.reset.mem.wf = true ∧ (List.replicate 80 (0x01 : Byte)).length = 80 ∧ ([] : List Byte).length ≠ 80 := by decide
theorem witness_LoadWritesProgramAndPc :
    State.reset.mem.wf = true ∧ (List.replicate 3584 (0x01 : Byte)).length ≤ 3584 ∧
      3584 < (List.replicate 3585 (0x01 : Byte)).length := by
  refine ⟨rfl, ?_, ?_⟩
  · exact (List.length_replicate ..).le
  · exact List.length_replicate .. ▸ (by decide : 3584 < 3585)
theorem witness_HostWriteReplacesOneElement :
    State.reset.mem.wf = true ∧ (4094 : Nat) ≠ (0xFFF : Imm12).toNat ∧ (0 : Reg) ≠ 15 := by decide
theorem witness_StoredWordIsFetched :
    ({ State.reset with pc := 0x0FFE } : State).mem.wf = true ∧ ({ State.reset with pc := 0x0FFE } : State).pc.toNat ≤ 4094 := by
  decide

end Sys2Proof.Tests
end

section
/-! The machine against the machine of any parameters (00_scope rule R5, decisions D4 and D6). -/

namespace Sys2Proof.Machine

/-! ### Execute at any parameters -/

@[simp] theorem execWith_call (cfg : Config) (nnn : Imm12) (s : State) :
    execWith cfg (.call nnn) s = callWith cfg.stackDepth nnn s := rfl

/-- `2NNN` is the only instruction whose meaning depends on the parameters (R102). -/
theorem execWith_of_ne_call (cfg : Config) {i : Instr} (s : State) (h : ∀ nnn, i ≠ .call nnn) :
    execWith cfg i s = exec i s := by
  rw [execWith]
  exact h

/-- `exec` is `execWith` at every strictness of the decoder, as long as `STACK_DEPTH` is the machine's (R5, D6). -/
theorem execWith_of_stackDepth {cfg : Config} (h : cfg.stackDepth = Config.machine.stackDepth) (i : Instr) (s : State) :
    execWith cfg i s = exec i s := by
  by_cases hc : ∃ nnn, i = .call nnn
  · obtain ⟨nnn, rfl⟩ := hc
    rw [execWith_call, h, exec, execCall]
  · exact execWith_of_ne_call cfg s (not_exists.mp hc)

/-! ### The machine's own parameters -/

@[simp] theorem execWith_machine (i : Instr) (s : State) : execWith Config.machine i s = exec i s :=
  execWith_of_stackDepth rfl i s

@[simp] theorem stepWith_machine (s : State) : stepWith Config.machine s = step s := by
  rw [stepWith, step]
  cases s.fetch Config.machine.strictLowNibble59 with
  | insn w i => exact congrArg completeStep (execWith_machine i (s.beginStep w))
  | fault f => rfl

/-- Both open parameters at their defaults are the machine's parameters (decisions D4, D6). -/
theorem defaultParameters_eq_machine :
    ({ stackDepth := none, strictLowNibble59 := false } : Config) = Config.machine := rfl

/-- Settles O18: the default parameters are the machine's, at which `2NNN` and the decoder are the machine's own. -/
theorem machineTakesDefaultParameters : Obligations.MachineTakesDefaultParameters := by
  unfold Obligations.MachineTakesDefaultParameters
  rw [defaultParameters_eq_machine]
  exact ⟨stepWith_machine, execWith_machine⟩

end Sys2Proof.Machine
end

section
/-! What a completed instruction can do, said once for every depth of the stack, and what follows from it for the frames
of 10_state rule R24 and for the invariant (10_state rules R13 to R15, R22). -/

namespace Sys2Proof.Machine

/-! ### The effect of an instruction -/

/-- The shapes of a completed instruction from `s` to the last argument, at `STACK_DEPTH = depth`. The lists are the
elements and the registers the shape writes, as in the access matrix (R24). -/
inductive InstrEffect (depth : Option Nat) (s : State) : List Elem → List Reg → State → Prop
  | clear : InstrEffect depth s [.disp, .du] [] (s.setDisp Display.blank).markUpdated
  | ret {a : Word} {rest : List Word} (h : s.stack = a :: rest) :
    InstrEffect depth s [.pc, .stack] [] { s with pc := a, stack := rest }
  | jump (nnn : Imm12) : InstrEffect depth s [.pc] [] (s.setPc (zext16 nnn))
  | call (nnn : Imm12) (h : s.stackFull depth = false) :
    InstrEffect depth s [.pc, .stack] [] ((s.push s.pc).setPc (zext16 nnn))
  | skip (c : Bool) : InstrEffect depth s [.pc] [] (s.skipIf c)
  | load (x : Reg) (b : Byte) : InstrEffect depth s [.v] [x] (s.writeV x b)
  | result (x : Reg) (b : Byte) (f : Bool) : InstrEffect depth s [.v] [x, vf] (s.writeResultFlag x b f)
  | index (nnn : Imm12) : InstrEffect depth s [.i] [] (s.setI (zext16 nnn))
  | draw (d : Display) (f : Bool) :
    InstrEffect depth s [.v, .disp, .du] [vf] ((s.setDisp d).writeV vf (flagByte f)).markUpdated

/-- A completed instruction, on a machine of any parameters, has one of the shapes, with the elements and registers of
its row (R24). -/
theorem execWith_effect {cfg : Config} {s t : State} :
    ∀ {i : Instr}, execWith cfg i s = .next t → InstrEffect cfg.stackDepth s (instrWrites i) (instrWritesRegs i) t
  | .cls, rfl => .clear
  | .ret, h => by
    obtain ⟨-, e⟩ | ⟨a, rest, hs, e⟩ := execRet_cases s
    · cases e.symm.trans h
    · cases e.symm.trans h; exact .ret hs
  | .jp nnn, rfl => .jump nnn
  | .call nnn, h => by
    obtain ⟨-, e⟩ | ⟨hf, e⟩ := callWith_cases cfg.stackDepth nnn s
    · cases e.symm.trans h
    · cases e.symm.trans h; exact .call nnn hf
  | .seImm .., rfl | .sneImm .., rfl | .seReg .., rfl | .sneReg .., rfl => .skip _
  | .ldImm x _, rfl | .addImm x _, rfl | .ldReg x _, rfl | .orReg x _, rfl | .andReg x _, rfl | .xorReg x _, rfl =>
    .load x _
  | .addReg x _, rfl | .sub x _, rfl | .subn x _, rfl | .shr x _, rfl | .shl x _, rfl => .result x _ _
  | .ldI nnn, rfl => .index nnn
  | .drw x y n, h => by
    obtain ⟨-, e⟩ | ⟨-, e⟩ := execDrw_cases x y n s
    · cases e.symm.trans h
    · cases e.symm.trans h; exact .draw _ _

/-- The machine's own instructions, whose stack is unbounded (R5, D6). -/
theorem exec_effect {i : Instr} {s t : State} (h : exec i s = .next t) :
    InstrEffect none s (instrWrites i) (instrWritesRegs i) t :=
  execWith_effect (cfg := Config.machine) ((execWith_machine i s).trans h)

/-! ### Frames (R24) -/

theorem Frame.setDisp (s : State) (d : Display) : Frame [.disp] s (s.setDisp d) := by
  apply Frame.of_fields <;> simp

theorem Frame.markUpdated (s : State) : Frame [.du] s s.markUpdated := by
  apply Frame.of_fields <;> simp

theorem Frame.push (s : State) (w : Word) : Frame [.stack] s (s.push w) := by
  apply Frame.of_fields <;> simp

theorem Frame.pcStack (s : State) (w : Word) (ws : List Word) :
    Frame [.pc, .stack] s { s with pc := w, stack := ws } := by
  apply Frame.of_fields <;> simp

section
variable {depth : Option Nat} {s t : State} {ws : List Elem} {rs : List Reg}

/-- An instruction leaves the elements outside its row as they are. -/
theorem InstrEffect.frame (h : InstrEffect depth s ws rs t) : Frame ws s t := by
  cases h with
  | clear => exact (Frame.setDisp s _).trans (Frame.markUpdated _)
  | ret => exact Frame.pcStack s _ _
  | jump => exact Frame.setPc s _
  | call => exact ((Frame.push s _).trans (Frame.setPc _ _)).mono (by decide)
  | skip c => exact Frame.skipIf s c
  | load x b => exact Frame.writeV s x b
  | result x b f => exact Frame.writeResultFlag s x b f
  | index => exact Frame.setI s _
  | draw d f =>
    exact (((Frame.setDisp s d).trans (Frame.writeV _ vf _)).trans (Frame.markUpdated _)).mono (by decide)

/-- An instruction leaves the registers outside its row as they are. -/
theorem InstrEffect.readV (h : InstrEffect depth s ws rs t) {r : Reg} (hr : r ∉ rs) : t.readV r = s.readV r := by
  cases h with
  | clear => simp
  | ret => exact State.readV_congr rfl r
  | jump => simp
  | call => simp
  | skip => simp
  | load x b => rw [State.readV_writeV, if_neg (by simpa using hr)]
  | result x b f =>
    rw [List.mem_pair, not_or] at hr
    rw [State.readV_writeResultFlag, if_neg hr.2, if_neg hr.1]
  | index => simp
  | draw d f => rw [State.readV_markUpdated, State.readV_writeV, if_neg (by simpa using hr), State.readV_setDisp]

end

/-- Settles O21: an instruction has the frame and the registers of its effect. -/
theorem instructionsWriteOnlyTheirElements : Obligations.InstructionsWriteOnlyTheirElements := by
  intro i s t h
  exact ⟨(exec_effect h).frame, fun _ => (exec_effect h).readV⟩

/-- Settles O22: the frames of the begun step, of its instruction and of the tick compose. -/
theorem stepWritesOnlyItsElements : Obligations.StepWritesOnlyItsElements := by
  intro s t w i hw hi h
  obtain ⟨w', i', u, hw', hi', hu, rfl⟩ := step_next h
  cases fetches_unique hw hw'
  cases hi.symm.trans hi'
  have effect := exec_effect hu
  constructor
  · have whole := ((Frame.beginStep s w).trans effect.frame).trans (Frame.tickTimers u)
    refine whole.mono fun e he => ?_
    simp only [stepWrites, List.mem_append, List.mem_cons] at he ⊢
    tauto
  · intro r hr
    rw [State.readV_tickTimers, effect.readV hr, State.readV_beginStep]

/-! ### The invariant -/

/-- Settles O24: memory and stack are empty, `I` is 0 and `PC` is 0x200 (R22). -/
theorem resetMeetsInvariant : Obligations.ResetMeetsInvariant where
  memCanonical := reset_memory_wf
  indexBound := by decide
  pcBound := by decide
  stackBound := List.forall_mem_nil _

/-- A step begins its instruction in the invariant, with `PC` low enough for a skip (R80, R83). -/
theorem Fetches.inv_beginStep {s : State} {w : Word} (h : Fetches s w) (hs : s.Inv) :
    (s.beginStep w).Inv ∧ (s.beginStep w).pc.toNat ≤ 4096 := by
  have hpc : (s.beginStep w).pc.toNat ≤ 4096 := by
    have := h.1
    rw [State.beginStep_pc]
    bv_omega
  exact ⟨{ hs with pcBound := by omega }, hpc⟩

theorem zext16_le (nnn : Imm12) : (zext16 nnn).toNat ≤ 4095 := by
  rw [zext16_toNat]
  omega

/-- A skip moves `PC` by at most 2 (41_control_flow section 2). -/
theorem skipIf_pc_le {s : State} {n : Nat} (c : Bool) (h : s.pc.toNat ≤ n) : (s.skipIf c).pc.toNat ≤ n + 2 := by
  rw [State.skipIf_pc]
  split <;> bv_omega

/-- On entry `PC` is at most 4096, so a skip ends at 4098 at most and a call pushes 4096 at most. -/
theorem InstrEffect.inv {depth : Option Nat} {s t : State} {ws : List Elem} {rs : List Reg}
    (h : InstrEffect depth s ws rs t) (hs : s.Inv) (hpc : s.pc.toNat ≤ 4096) : t.Inv := by
  cases h with
  | clear => exact { hs with }
  | ret e =>
    have stack := hs.stackBound
    rw [e, List.forall_mem_cons] at stack
    exact { hs with pcBound := stack.1.trans (by decide), stackBound := stack.2 }
  | jump nnn => exact { hs with pcBound := (zext16_le nnn).trans (by decide) }
  | call nnn =>
    exact { hs with
      pcBound := (zext16_le nnn).trans (by decide)
      stackBound := List.forall_mem_cons.2 ⟨hpc, hs.stackBound⟩ }
  | skip c =>
    exact {
      memCanonical := by simpa using hs.memCanonical
      indexBound := by simpa using hs.indexBound
      pcBound := skipIf_pc_le c hpc
      stackBound := by simpa using hs.stackBound }
  | load => exact { hs with }
  | result => exact { hs with }
  | index nnn => exact { hs with indexBound := zext16_le nnn }
  | draw => exact { hs with }

/-- Settles O23: the begun step, its instruction and the tick each keep the invariant. -/
theorem stepKeepsInvariant : Obligations.StepKeepsInvariant := by
  intro s t hs h
  obtain ⟨w, i, u, hw, -, hu, rfl⟩ := step_next h
  obtain ⟨begun, hpc⟩ := hw.inv_beginStep hs
  exact { (exec_effect hu).inv begun hpc with }

/-! ### The depth of the stack -/

theorem stackFull_some_eq_false_iff (s : State) (d : Nat) : s.stackFull (some d) = false ↔ s.stack.length < d := by
  simp [State.stackFull]

theorem stackAllowed_iff {cfg : Config} {d : Nat} (hd : cfg.stackDepth = some d) (ws : List Word) :
    stackAllowed cfg ws = true ↔ ws.length ≤ d := by
  simp [stackAllowed, hd]

/-- A call pushes only below the limit, and nothing else deepens the stack (R195). -/
theorem InstrEffect.stack_length_le {d : Nat} {s t : State} {ws : List Elem} {rs : List Reg}
    (h : InstrEffect (some d) s ws rs t) (hs : s.stack.length ≤ d) : t.stack.length ≤ d := by
  cases h with
  | clear => exact hs
  | ret e =>
    rw [e, List.length_cons] at hs
    exact Nat.le_of_succ_le hs
  | jump => exact hs
  | call nnn hf => exact (stackFull_some_eq_false_iff s d).1 hf
  | skip => simpa using hs
  | load => exact hs
  | result => exact hs
  | index => exact hs
  | draw => exact hs

section
variable {cfg : Config} {d : Nat} {s t : State}

theorem stepWith_stack_length_le (hd : cfg.stackDepth = some d) (h : stepWith cfg s = .next t)
    (hs : s.stack.length ≤ d) : t.stack.length ≤ d := by
  obtain ⟨w, i, u, -, -, hu, rfl⟩ := stepWith_next h
  have effect := execWith_effect hu
  rw [hd] at effect
  exact effect.stack_length_le hs

theorem hostWrite_stack_length_le (hd : cfg.stackDepth = some d) {target : HostWrite}
    (h : hostWrite cfg target s = .next t) (hs : s.stack.length ≤ d) : t.stack.length ≤ d := by
  cases target with
  | stack ws =>
    obtain ⟨allowed, e⟩ | ⟨-, e⟩ := hostWrite_stack_cases cfg ws s
    · cases e.symm.trans h; exact (stackAllowed_iff hd ws).1 allowed
    · cases e.symm.trans h
  | v | mem | i | pc | dt | st => cases h; exact hs

theorem operate_stack_length_le (hd : cfg.stackDepth = some d) {op : HostOp} (h : operate cfg op s = .next t)
    (hs : s.stack.length ≤ d) : t.stack.length ≤ d := by
  cases op with
  | reset => cases h; exact Nat.zero_le d
  | loadFont font =>
    obtain ⟨-, e⟩ | ⟨-, e⟩ := loadFont_cases font s
    · cases e.symm.trans h; exact hs
    · cases e.symm.trans h
  | load rom =>
    obtain ⟨-, e⟩ | ⟨-, e⟩ := load_cases rom s
    · cases e.symm.trans h; exact hs
    · cases e.symm.trans h
  | step => exact stepWith_stack_length_le hd h hs
  | read => cases h; exact hs
  | write => exact hostWrite_stack_length_le hd h hs

end

/-- Settles O20: a completed operation keeps the depth within the limit, and any other leaves the state. -/
theorem finiteStackDepthIsNeverExceeded : Obligations.FiniteStackDepthIsNeverExceeded := by
  intro cfg d op s hd hs
  obtain ⟨t, ht, e⟩ | e := performWith_state_cases cfg op s
  · rw [e]; exact operate_stack_length_le hd ht hs
  · rw [e]; exact hs

/-! ### Reset -/

/-- A register after reset reads as 0x00 (R22). -/
theorem readV_reset (r : Reg) : State.reset.readV r = 0x00 := by
  simp [State.readV, State.reset]

/-- Settles O26: the reply and the elements are those of `State.reset`, whatever the state before. -/
theorem resetValues : Obligations.ResetValues := by
  intro s
  exact ⟨State.reset, rfl, rfl, fun _ _ => rfl, readV_reset, rfl, rfl, rfl, rfl, rfl,
    fun y x _ _ => Display.pixel_blank y x, rfl, rfl⟩

end Sys2Proof.Machine
end

section
/-! Memory: no step stores (20_memory rule R42), the host's stores keep it canonical (rules R40, R53), and `DXYN` reads
within it (rule R46, decision D7). -/

namespace Sys2Proof.Machine

/-! ### Steps leave memory alone (R42) -/

/-- No row of the access matrix has a `w` in the memory column (R24, R42). -/
theorem mem_notMem_instrWrites (i : Instr) : Elem.mem ∉ instrWrites i := by
  cases i <;> simp [instrWrites]

/-- On a machine of any parameters a completed step writes the elements of the step and those of its instruction. -/
theorem stepWith_frame {cfg : Config} {s t : State} (h : stepWith cfg s = .next t) :
    ∃ i, Frame ([.pc, .du, .opc] ++ instrWrites i ++ [.dt, .st]) s t := by
  obtain ⟨w, i, u, -, -, hu, rfl⟩ := stepWith_next h
  exact ⟨i, ((Frame.beginStep s w).trans (execWith_effect hu).frame).trans (Frame.tickTimers u)⟩

/-- Settles O15: memory is outside the frame of every step. -/
theorem stepNeverChangesMemory : Obligations.StepNeverChangesMemory := by
  intro cfg s t h
  obtain ⟨i, frame⟩ := stepWith_frame h
  exact frame .mem (by simp [mem_notMem_instrWrites])

/-! ### The host keeps memory canonical (R40, R53) -/

section
variable {cfg : Config} {s t : State}

/-- The host names a byte by its 12-bit address, so the byte exists (R53). -/
theorem hostWrite_memory_wf {target : HostWrite} (h : hostWrite cfg target s = .next t) (hs : s.mem.wf = true) :
    t.mem.wf = true := by
  cases target with
  | mem a b => cases h; exact Memory.set_wf b hs a.isLt
  | stack ws =>
    obtain ⟨-, e⟩ | ⟨-, e⟩ := hostWrite_stack_cases cfg ws s
    · cases e.symm.trans h; exact hs
    · cases e.symm.trans h
  | v | i | pc | dt | st => cases h; exact hs

/-- The font region and the program region lie in memory (R41), so what is loaded stays below 4096. -/
theorem operate_memory_wf {op : HostOp} (h : operate cfg op s = .next t) (hs : s.mem.wf = true) :
    t.mem.wf = true := by
  cases op with
  | reset => cases h; exact reset_memory_wf
  | loadFont font =>
    obtain ⟨len, e⟩ | ⟨-, e⟩ := loadFont_cases font s
    · cases e.symm.trans h; exact Memory.setBytes_wf font hs (by omega)
    · cases e.symm.trans h
  | load rom =>
    obtain ⟨len, e⟩ | ⟨-, e⟩ := load_cases rom s
    · cases e.symm.trans h; exact Memory.setBytes_wf rom hs (by omega)
    · cases e.symm.trans h
  | step => rw [(stepNeverChangesMemory cfg s t h).1]; exact hs
  | read => cases h; exact hs
  | write => exact hostWrite_memory_wf h hs

end

/-- Settles O25: a completed operation keeps memory canonical, and any other leaves the state. -/
theorem hostOperationsKeepMemoryCanonical : Obligations.HostOperationsKeepMemoryCanonical := by
  intro cfg op s hs
  obtain ⟨t, ht, e⟩ | e := performWith_state_cases cfg op s
  · rw [e]; exact operate_memory_wf ht hs
  · rw [e]; exact hs

/-! ### The rows of a sprite (R46) -/

/-- The step that fetches an instruction's word is that instruction executed and then a tick (R81). -/
theorem step_of_fetches {s : State} {w : Word} {i : Instr} (hw : Fetches s w) (hi : decodeWord false w = .instr i) :
    step s = completeStep (exec i (s.beginStep w)) := by
  have fetched : s.fetch Config.machine.strictLowNibble59 = .insn w i := by
    rw [fetch_of_fetches _ hw, show Config.machine.strictLowNibble59 = false from rfl, hi]
  rw [step, fetched]

/-- The host gets the fault of a step as its reply, and the state is as it was (R86, R178). -/
theorem perform_step_of_fault {s : State} {f : Fault} (h : step s = .fault f) :
    perform .step s = (s, .fault f) := by
  rw [perform, performWith, operate, stepWith_machine, h, State.after, reply]

/-- `DXYN` with a row outside memory raises `OutOfBounds(I)` (R46, D7). -/
theorem exec_drw_of_row_outside {s : State} (x y : Reg) {n : Nibble} (rows : 1 ≤ n.toNat)
    (outside : 4095 < s.i.toNat + n.toNat - 1) : exec (.drw x y n) s = .fault (.outOfBounds s.i) := by
  obtain ⟨-, e⟩ | ⟨inside, -⟩ := execDrw_cases x y n s
  · exact e
  · rw [spriteInMemory_iff] at inside
    omega

/-- `DXYN` with no row, or with every row in memory, completes (R46). -/
theorem exec_drw_of_rows_inside {s : State} (x y : Reg) {n : Nibble}
    (inside : n.toNat = 0 ∨ s.i.toNat + n.toNat - 1 ≤ 4095) : ∃ t, exec (.drw x y n) s = .next t := by
  obtain ⟨outside, -⟩ | ⟨-, e⟩ := execDrw_cases x y n s
  · rw [(spriteInMemory_iff s n.toNat).2 inside] at outside
    cases outside
  · exact ⟨_, e⟩

/-- Settles O45: the bound is checked before a row is drawn, on the `I` the step began with. -/
theorem spriteRowsMustLieInMemory : Obligations.SpriteRowsMustLieInMemory := by
  intro x y n s
  refine ⟨fun rows outside => ⟨exec_drw_of_row_outside x y rows outside, ?_⟩, exec_drw_of_rows_inside x y⟩
  intro u w hi hw hdec
  rw [← hi] at outside
  apply perform_step_of_fault
  rw [step_of_fetches hw hdec, exec_drw_of_row_outside (s := u.beginStep w) x y rows outside]
  rfl

end Sys2Proof.Machine
end

section
/-! The decoder and the encoder are inverse, and what the decoder refuses (30_encoding rules R60 to R70). -/

namespace Sys2Proof

/-! ### A word is made of its fields (R61, R70) -/

section
variable {w : Word} {op n : Nibble}

theorem fieldOp_eq_iff : fieldOp w = op ↔ w.toNat / 4096 = op.toNat := by
  rw [← BitVec.toNat_inj, fieldOp_toNat]
  omega

theorem fieldN_eq_iff : fieldN w = n ↔ w.toNat % 16 = n.toNat := by
  rw [← BitVec.toNat_inj, fieldN_toNat]

end

section
variable {w : Word} {op : Nat}

theorem fieldX_val (w : Word) : (fieldX w).val = w.toNat / 256 % 16 := rfl

theorem fieldY_val (w : Word) : (fieldY w).val = w.toNat / 16 % 16 := rfl

theorem encodeNNN_fields (h : w.toNat / 4096 = op) : encodeNNN op (fieldNNN w) = w := by
  apply BitVec.eq_of_toNat_eq
  rw [encodeNNN_toNat _ _ (by omega), fieldNNN_toNat]
  omega

theorem encodeXNN_fields (h : w.toNat / 4096 = op) : encodeXNN op (fieldX w) (fieldNN w) = w := by
  apply BitVec.eq_of_toNat_eq
  rw [encodeXNN_toNat _ _ _ (by omega), fieldX_val, fieldNN_toNat]
  omega

theorem encodeXYN_fields {n : Nibble} (h : w.toNat / 4096 = op) (hn : fieldN w = n) :
    encodeXYN op (fieldX w) (fieldY w) n = w := by
  subst hn
  apply BitVec.eq_of_toNat_eq
  rw [encodeXYN_toNat _ _ _ _ (by omega), fieldX_val, fieldY_val, fieldN_toNat]
  omega

end

/-! ### What the decoder can answer (R64 to R67) -/

/-- The table of illegal words (R67), by the fields of the word. -/
def IllegalWord (w : Word) : Prop :=
  (fieldOp w = 0x0 ∧ w ≠ 0x00E0 ∧ w ≠ 0x00EE) ∨
    (fieldOp w = 0x8 ∧ fieldN w ∈ [0x8, 0x9, 0xA, 0xB, 0xC, 0xD, 0xF]) ∨ fieldOp w ∈ [0xB, 0xC, 0xE, 0xF]

/-- The answers the decoder may give at `w`: an instruction only if `w` is its word, and `w` as unknown only if it is
illegal or the parameter is strict (R66). -/
inductive DecodeAnswer (strict : Bool) (w : Word) : Decoded → Prop
  | instr {i : Instr} (word : encode i = w) (wf : i.wellFormed strict = true) : DecodeAnswer strict w (.instr i)
  | illegal (h : IllegalWord w) : DecodeAnswer strict w (.unknownOpcode w)
  | strictNibble (hs : strict = true) : DecodeAnswer strict w (.unknownOpcode w)

section
variable {strict : Bool} {w : Word}

theorem decodeSystem_answer (op : fieldOp w = 0x0) : DecodeAnswer strict w (decodeSystem w) := by
  unfold decodeSystem
  split
  · rename_i cls
    exact .instr cls.symm rfl
  · rename_i cls
    split
    · rename_i ret
      exact .instr ret.symm rfl
    · rename_i ret
      exact .illegal (.inl ⟨op, cls, ret⟩)

/-- A nibble that is no sub-opcode of the 0x8 family (R64, R67). -/
theorem nibble_no_alu : ∀ n : Nibble, n ∉ [0x0, 0x1, 0x2, 0x3, 0x4, 0x5, 0x6, 0x7, 0xE] →
    n ∈ [0x8, 0x9, 0xA, 0xB, 0xC, 0xD, 0xF] := by
  decide

/-- A nibble that is no family with an instruction (R63, R67). -/
theorem nibble_no_family : ∀ op : Nibble, op ∉ [0x0, 0x1, 0x2, 0x3, 0x4, 0x5, 0x6, 0x7, 0x8, 0x9, 0xA, 0xD] →
    op ∈ [0xB, 0xC, 0xE, 0xF] := by
  decide

theorem decodeAlu_answer (op : fieldOp w = 0x8) : DecodeAnswer strict w (decodeAlu w) := by
  unfold decodeAlu
  split
  case h_10 => exact .illegal (.inr (.inl ⟨op, nibble_no_alu _ (by simp_all)⟩))
  all_goals
    rename_i n
    exact .instr (encodeXYN_fields (fieldOp_eq_iff.1 op) n) rfl

theorem decodeSkipReg_answer {i : Instr} (word : encode i = w)
    (wf : i.wellFormed strict = lowNibbleOk strict (fieldN w)) :
    DecodeAnswer strict w (decodeSkipReg strict w i) := by
  unfold decodeSkipReg
  split
  · rename_i ok
    exact .instr word (wf.trans ok)
  · rename_i bad
    cases strict
    · exact absurd rfl bad
    · exact .strictNibble rfl

/-- The decoder gives an allowed answer on every word: each family dispatches on `op` and reads its own fields. -/
theorem decodeWord_answer (strict : Bool) (w : Word) : DecodeAnswer strict w (decodeWord strict w) := by
  unfold decodeWord
  split
  case h_1 op => exact decodeSystem_answer op
  case h_2 op | h_3 op | h_11 op => exact .instr (encodeNNN_fields (fieldOp_eq_iff.1 op)) rfl
  case h_4 op | h_5 op | h_7 op | h_8 op => exact .instr (encodeXNN_fields (fieldOp_eq_iff.1 op)) rfl
  case h_6 op | h_10 op => exact decodeSkipReg_answer (encodeXYN_fields (fieldOp_eq_iff.1 op) rfl) rfl
  case h_9 op => exact decodeAlu_answer op
  case h_12 op => exact .instr (encodeXYN_fields (fieldOp_eq_iff.1 op) rfl) rfl
  case h_13 => exact .illegal (.inr (.inr (nibble_no_family _ (by simp_all))))

theorem decodeSystem_of_ne (cls : w ≠ 0x00E0) (ret : w ≠ 0x00EE) : decodeSystem w = .unknownOpcode w := by
  rw [decodeSystem, if_neg cls, if_neg ret]

/-- An unknown word is carried by the answer as it was fetched (R193). -/
theorem decodeWord_of_illegal (strict : Bool) (h : IllegalWord w) : decodeWord strict w = .unknownOpcode w := by
  rcases h with ⟨op, cls, ret⟩ | ⟨op, sub⟩ | op
  · simp [decodeWord, op, decodeSystem_of_ne cls ret]
  · simp only [List.mem_cons, List.not_mem_nil, or_false] at sub
    rcases sub with n | n | n | n | n | n | n <;> simp [decodeWord, op, decodeAlu, n]
  · simp only [List.mem_cons, List.not_mem_nil, or_false] at op
    rcases op with op | op | op | op <;> simp [decodeWord, op]

/-- At the default parameter the words that are no instruction are the illegal ones (R67). -/
theorem no_instr_iff_illegal : (∀ i, decodeWord false w ≠ .instr i) ↔ IllegalWord w := by
  constructor
  · intro noInstr
    cases answer : decodeWord false w with
    | instr i => exact absurd answer (noInstr i)
    | unknownOpcode w' =>
      have spec := decodeWord_answer false w
      rw [answer] at spec
      cases spec with
      | illegal h => exact h
      | strictNibble hs => cases hs
  · intro h i answer
    cases (decodeWord_of_illegal false h).symm.trans answer

end

/-- Settles O2: an instruction the decoder answers is one whose word it was given. -/
theorem encodeOfDecodeIsWord : Obligations.EncodeOfDecodeIsWord := by
  intro strict w i answer
  have spec := decodeWord_answer strict w
  rw [answer] at spec
  cases spec with
  | instr word wf => exact ⟨word, wf⟩

/-- Settles O1: the decoder reads from the word the fields it was encoded from. -/
theorem decodeOfEncodeIsInstruction : Obligations.DecodeOfEncodeIsInstruction := by
  intro strict i wf
  cases i with
  | cls | ret => rfl
  | jp | call | ldI => simp [encode, decodeWord, fields_encodeNNN]
  | seImm | sneImm | ldImm | addImm => simp [encode, decodeWord, fields_encodeXNN]
  | seReg x y n | sneReg x y n =>
    have ok : lowNibbleOk strict n = true := wf
    simp [encode, decodeWord, decodeSkipReg, fields_encodeXYN, ok]
  | ldReg | orReg | andReg | xorReg | addReg | sub | subn | shr | shl =>
    simp [encode, decodeWord, decodeAlu, fields_encodeXYN]
  | drw => simp [encode, decodeWord, fields_encodeXYN]

/-- Settles O7: each word is the encoding of its instruction. -/
theorem writtenOutWordsDecode : Obligations.WrittenOutWordsDecode := by
  have decodes (i : Instr) (wf : i.wellFormed false = true) := decodeOfEncodeIsInstruction false i wf
  exact ⟨decodes .cls rfl, decodes (.call 0x20E) rfl, decodes (.sneImm 10 0x42) rfl, decodes (.ldImm 1 0xFF) rfl,
    decodes (.addReg 0 1) rfl, decodes (.ldI 0x20C) rfl, decodes (.drw 0 1 2) rfl⟩

/-! ### The opcode table (R63) -/

theorem accepts_iff (r : OpcodeRow) (w : Word) : r.accepts w = true ↔ rowFits r w := by
  rw [OpcodeRow.accepts, beq_iff_eq]

open Laws.TableRow in
/-- Every instruction's word matches the instruction's row, which is in the table. -/
theorem tableRow : ∀ i : Instr, Statement i
  | .cls => cls
  | .ret => ret
  | .jp .. => jp _
  | .call .. => call _
  | .seImm .. => seImm _ _
  | .sneImm .. => sneImm _ _
  | .seReg .. => seReg _ _ _
  | .sneReg .. => sneReg _ _ _
  | .ldImm .. => ldImm _ _
  | .addImm .. => addImm _ _
  | .ldReg .. => ldReg _ _
  | .orReg .. => orReg _ _
  | .andReg .. => andReg _ _
  | .xorReg .. => xorReg _ _
  | .addReg .. => addReg _ _
  | .sub .. => sub _ _
  | .subn .. => subn _ _
  | .shr .. => shr _ _
  | .shl .. => shl _ _
  | .ldI .. => ldI _
  | .drw .. => drw _ _ _

/-- Two rows of the table that agree where both masks look are one row. -/
theorem row_eq_of_agree : ∀ r ∈ opcodeTable, ∀ r' ∈ opcodeTable,
    r.matchBits &&& r'.mask = r'.matchBits &&& r.mask → r = r' := by
  decide

/-- No two rows match the same word (R63). -/
theorem row_unique {r r' : OpcodeRow} {w : Word} (hr : r ∈ opcodeTable) (hr' : r' ∈ opcodeTable) (h : rowFits r w)
    (h' : rowFits r' w) : r = r' := by
  apply row_eq_of_agree r hr r' hr'
  rw [← h, ← h', BitVec.and_assoc, BitVec.and_assoc, BitVec.and_comm r.mask]

section
variable {r : OpcodeRow} {w : Word}

/-- Where the mask keeps all of `op`, a word has the `op` of the row it matches. -/
theorem fieldOp_of_rowFits (h : rowFits r w) (mask : fieldOp r.mask = BitVec.allOnes 4) :
    fieldOp w = fieldOp r.matchBits := by
  rw [← h, fieldOp, fieldOp, BitVec.extractLsb'_and, ← fieldOp, ← fieldOp, mask, BitVec.and_allOnes]

/-- Where the mask keeps all of `n`, a word has the `n` of the row it matches. -/
theorem fieldN_of_rowFits (h : rowFits r w) (mask : fieldN r.mask = BitVec.allOnes 4) :
    fieldN w = fieldN r.matchBits := by
  rw [← h, fieldN, fieldN, BitVec.extractLsb'_and, ← fieldN, ← fieldN, mask, BitVec.and_allOnes]

/-- Every mask keeps `op`, and no row is of a family without an instruction. -/
theorem row_op : ∀ r ∈ opcodeTable,
    fieldOp r.mask = BitVec.allOnes 4 ∧ fieldOp r.matchBits ∉ [0xB, 0xC, 0xE, 0xF] := by
  decide

/-- The rows of the 0x0 family match one word each. -/
theorem row_system : ∀ r ∈ opcodeTable, fieldOp r.matchBits = 0x0 →
    r.mask = BitVec.allOnes 16 ∧ (r.matchBits = 0x00E0 ∨ r.matchBits = 0x00EE) := by
  decide

/-- The masks of the 0x8 family keep `n`, and no row has a sub-opcode of R67's list. -/
theorem row_alu : ∀ r ∈ opcodeTable, fieldOp r.matchBits = 0x8 →
    fieldN r.mask = BitVec.allOnes 4 ∧ fieldN r.matchBits ∉ [0x8, 0x9, 0xA, 0xB, 0xC, 0xD, 0xF] := by
  decide

/-- An illegal word matches no row (R63, R67). -/
theorem illegal_fits_no_row (hr : r ∈ opcodeTable) (h : rowFits r w) : ¬ IllegalWord w := by
  obtain ⟨opMask, legalOp⟩ := row_op r hr
  have sameOp := fieldOp_of_rowFits h opMask
  rintro (⟨op, cls, ret⟩ | ⟨op, n⟩ | op)
  · obtain ⟨mask, bits⟩ := row_system r hr (sameOp.symm.trans op)
    rw [rowFits, mask, BitVec.and_allOnes] at h
    rw [← h] at bits
    exact bits.elim cls ret
  · obtain ⟨nMask, legalN⟩ := row_alu r hr (sameOp.symm.trans op)
    exact legalN (fieldN_of_rowFits h nMask ▸ n)
  · exact legalOp (sameOp ▸ op)

end

/-- Settles O3: the row of a decoded instruction matches its word, and no two rows match one word. -/
theorem wordMatchesOnlyItsTableRow : Obligations.WordMatchesOnlyItsTableRow := by
  refine ⟨rfl, fun w => ⟨fun i answer r hr => ?_, fun i _ => (tableRow i).2, fun noInstr r hr => ?_⟩⟩
  · obtain ⟨rfl, -⟩ := encodeOfDecodeIsWord false w i answer
    obtain ⟨fits, mem⟩ := tableRow i
    rw [accepts_iff]
    exact ⟨fun h => row_unique hr mem h fits, fun e => e ▸ fits⟩
  · rw [Bool.eq_false_iff, ne_eq, accepts_iff]
    exact fun h => illegal_fits_no_row hr h (no_instr_iff_illegal.1 noInstr)

end Sys2Proof

namespace Sys2Proof.Machine

/-! ### Steps on unknown words (R65 to R67, R193) -/

/-- The step that fetches an unknown word faults with it. -/
theorem step_of_fetches_unknown {s : State} {w : Word} (hw : Fetches s w)
    (unknown : decodeWord false w = .unknownOpcode w) : step s = .fault (.unknownOpcode w) := by
  have fetched : s.fetch Config.machine.strictLowNibble59 = .fault (.unknownOpcode w) := by
    rw [fetch_of_fetches _ hw, show Config.machine.strictLowNibble59 = false from rfl, unknown]
  rw [step, fetched]
  rfl

theorem step_of_fetches_illegal {s : State} {w : Word} (hw : Fetches s w) (illegal : IllegalWord w) :
    step s = .fault (.unknownOpcode w) :=
  step_of_fetches_unknown hw (decodeWord_of_illegal false illegal)

/-- Settles O4: the two instructions of the family are known by their words, and its other words are illegal. -/
theorem zeroFamilyMatchedOnWholeWord : Obligations.ZeroFamilyMatchedOnWholeWord := by
  intro strict w family
  have decoded (i : Instr) (wf : i.wellFormed strict = true) : decodeWord strict w = .instr i ↔ w = encode i :=
    ⟨fun answer => (encodeOfDecodeIsWord strict w i answer).1.symm,
      fun word => word ▸ decodeOfEncodeIsInstruction strict i wf⟩
  refine ⟨decoded .cls rfl, decoded .ret rfl, fun cls ret => ?_⟩
  have op : fieldOp w = 0x0 := fieldOp_eq_iff.2 (Nat.div_eq_of_lt (Nat.lt_succ_of_le family))
  have illegal : IllegalWord w := .inl ⟨op, cls, ret⟩
  exact ⟨decodeWord_of_illegal strict illegal, fun s hw => step_of_fetches_illegal hw illegal⟩

theorem lowNibbleOk_strict_of_ne {n : Nibble} (h : n ≠ 0) : lowNibbleOk true n = false := by
  simpa [lowNibbleOk] using h

/-- The word of a register skip that the parameter forbids is unknown (R66). -/
theorem decodeWord_registerSkip_unknown (x y : Reg) {n : Nibble} (h : n ≠ 0) :
    decodeWord true (encode (.seReg x y n)) = .unknownOpcode (encode (.seReg x y n)) ∧
      decodeWord true (encode (.sneReg x y n)) = .unknownOpcode (encode (.sneReg x y n)) := by
  simp [encode, decodeWord, decodeSkipReg, fields_encodeXYN, lowNibbleOk_strict_of_ne h]

/-- Settles O5: the words are those of the two register skips, which execute alike for every low nibble. -/
theorem lowNibbleOfRegisterSkipsIgnored : Obligations.LowNibbleOfRegisterSkipsIgnored := by
  intro x y n
  change (∃ i, decodeWord false (encode (.seReg x y n)) = .instr i ∧ _) ∧
    (∃ i, decodeWord false (encode (.sneReg x y n)) = .instr i ∧ _) ∧ _
  refine ⟨⟨.seReg x y n, decodeOfEncodeIsInstruction false _ rfl, fun _ => rfl⟩,
    ⟨.sneReg x y n, decodeOfEncodeIsInstruction false _ rfl, fun _ => rfl⟩, ?_, decodeWord_registerSkip_unknown x y⟩
  rintro rfl
  exact ⟨decodeOfEncodeIsInstruction true (.seReg x y 0) rfl, decodeOfEncodeIsInstruction true (.sneReg x y 0) rfl⟩

/-- Settles O6: the table's words by their fields, and the fault of the step that fetches one. -/
theorem illegalWordsFault : Obligations.IllegalWordsFault := by
  intro w
  constructor
  · rw [no_instr_iff_illegal]
    simp [IllegalWord, fieldOp_eq_iff, fieldN_eq_iff]
  · intro noInstr s hw
    exact perform_step_of_fault (step_of_fetches_illegal hw (no_instr_iff_illegal.1 noInstr))

/-! ### A stored word (R43, R50, R70) -/

theorem tableWord_toNat (w : Word) : tableWord 16 w.toNat = w := by
  apply BitVec.eq_of_toNat_eq
  simpa [tableWord] using w.isLt

/-- Where a step can fetch, the word is stored high byte first. -/
theorem withFetchWord_of_bound {s : State} (w : Word) (h : s.pc.toNat ≤ 4094) :
    s.withFetchWord 16 w.toNat = s.memWriteBytes s.pc.toNat [highByte w, lowByte w] := by
  rw [State.withFetchWord, if_pos ((inMemory_iff ..).2 (by omega)), tableWord_toNat]

/-- Two bytes stored at one address, the first the high byte, are read there as their word. -/
theorem memRead2_memWriteBytes {s : State} {a : Nat} (hi lo : Byte) (hs : s.mem.wf = true) (h : a ≤ 4094) :
    (s.memWriteBytes a [hi, lo]).memRead2 a = wordOfBytes hi lo := by
  have bound : a + [hi, lo].length ≤ 4096 := by simpa using h
  rw [State.memRead2, State.memWriteBytes_mem, Memory.get_setBytes _ hs bound, Memory.get_setBytes _ hs bound]
  simp

/-- Settles O55: the bytes of the word are stored where the step reads it, and nothing but memory is written. -/
theorem storedWordIsFetched : Obligations.StoredWordIsFetched := by
  intro s w hs h
  rw [withFetchWord_of_bound w h]
  refine ⟨?_, Frame.memWriteBytes s _ _⟩
  rw [fetches_iff]
  refine ⟨(inMemory_iff ..).2 (Nat.add_le_add_right h 2), ?_⟩
  exact (memRead2_memWriteBytes _ _ hs h).trans (wordOfBytes_highByte_lowByte w)

end Sys2Proof.Machine
end

section
/-! The step cycle: a step is one instruction between the fetch and the tick (40_step_cycle rules R80 to R90), and an
operation that faults has no effect (60_exceptions, decision D2). -/

namespace Sys2Proof

/-! ### What the decoder's answer says of the word (R63, R70) -/

theorem wellFormed_default (i : Instr) : i.wellFormed false = true := by
  cases i <;> rfl

/-- Distinct instructions have distinct words, since the decoder tells them apart. -/
theorem encode_injective : Function.Injective encode := by
  intro i j h
  have hi := decodeOfEncodeIsInstruction false i (wellFormed_default i)
  rw [h, decodeOfEncodeIsInstruction false j (wellFormed_default j)] at hi
  exact (Decoded.instr.inj hi).symm

/-- The high nibble of an instruction's word is the one in its row of the table. -/
theorem encode_div_eq_row_op (i : Instr) : (encode i).toNat / 4096 = (fieldOp i.row.matchBits).toNat := by
  obtain ⟨fits, mem⟩ := tableRow i
  exact fieldOp_eq_iff.1 (fieldOp_of_rowFits fits (row_op i.row mem).1)

/-- A word the decoder refuses is the word it names (R67, R193). -/
theorem decodeWord_unknown {strict : Bool} {w w' : Word} (h : decodeWord strict w = .unknownOpcode w') : w' = w := by
  have spec := decodeWord_answer strict w
  rw [h] at spec
  cases spec with
  | illegal => rfl
  | strictNibble => rfl

end Sys2Proof

namespace Sys2Proof.Machine

/-! ### Faults (R80, R86, R178) -/

/-- The reply to an operation is a fault only when its outcome is (R175). -/
theorem reply_eq_fault_iff (op : HostOp) (s : State) (r : Result) (f : Fault) :
    reply op s r = .fault f ↔ r = .fault f := by
  cases r with
  | next t => cases op <;> simp [reply]
  | fault g => simp [reply]
  | refused q => simp [reply]

/-- Settles O10: a reply that is a fault comes of an outcome that is one, which has no next state to commit. -/
theorem faultingOperationChangesNothing : Obligations.FaultingOperationChangesNothing := by
  refine ⟨fun cfg op s f h => ?_, fun s f => perform_step_of_fault⟩
  have faulted : operate cfg op s = .fault f := (reply_eq_fault_iff op s _ f).1 h
  rw [performWith, faulted, State.after]

/-- The bound on `PC` is the first check of a step (R80). -/
theorem step_of_pc_outOfBounds {s : State} (h : 4094 < s.pc.toNat) : step s = .fault (.outOfBounds s.pc) := by
  rw [step, fetch_outOfBounds _ h]
  rfl

/-! ### One instruction between fetch and tick (R81) -/

/-- Lines 1 to 3 of R81, written out on the record. -/
theorem State.beginStep_eq (s : State) (w : Word) :
    s.beginStep w = { s with pc := s.pc + 2, du := false, opc := w } := rfl

/-- Settles O8: the begun step and the tick are the record updates of R81. -/
theorem stepRunsDecodedInstruction : Obligations.StepRunsDecodedInstruction := by
  intro s w i hw hi
  rw [step_of_fetches hw hi, State.beginStep_eq]
  cases exec i { s with pc := s.pc + 2, du := false, opc := w } with
  | next t => rfl
  | fault f => rfl
  | refused r => rfl

/-- Settles O9: above the bound there is no fetch, and below it the word is decoded and its instruction executed. -/
theorem fetchBoundIs4094 : Obligations.FetchBoundIs4094 := by
  constructor
  · intro s h
    have faulted := step_of_pc_outOfBounds h
    exact ⟨faulted, perform_step_of_fault faulted⟩
  · intro s h
    have hw := fetches_of_bound h
    refine ⟨s.memRead2 s.pc.toNat, hw, fun w' unknown => ?_, fun i t hi ht => ⟨t.tickTimers, ?_⟩⟩
    · obtain rfl := decodeWord_unknown unknown
      exact step_of_fetches_unknown hw unknown
    · rw [step_of_fetches hw hi, State.beginStep_eq, ht, completeStep]

/-- A completed step that fetches `w` executes an instruction whose word is `w`. -/
theorem step_next_encode {s t : State} {w : Word} (hw : Fetches s w) (h : step s = .next t) :
    ∃ i u, encode i = w ∧ exec i (s.beginStep w) = .next u ∧ t = u.tickTimers := by
  obtain ⟨w', i, u, hw', hi, hu, ht⟩ := step_next h
  obtain rfl := fetches_unique hw hw'
  exact ⟨i, u, (encodeOfDecodeIsWord false w i hi).1, hu, ht⟩

/-! ### `OPC` (R89) -/

/-- No row of the access matrix has a `w` in the `OPC` column (R24). -/
theorem opc_notMem_instrWrites (i : Instr) : Elem.opc ∉ instrWrites i := by
  cases i <;> simp [instrWrites]

/-- Settles O13: the word is written as the step begins and by no instruction, and a fault leaves the whole state. -/
theorem currentOpcodeIsFetchedWord : Obligations.CurrentOpcodeIsFetchedWord := by
  constructor
  · intro s t h
    obtain ⟨w, i, u, hw, -, hu, rfl⟩ := step_next h
    have opc : u.opc = w := (exec_effect hu).frame .opc (opc_notMem_instrWrites i)
    rwa [State.tickTimers_opc, opc]
  · intro s f h
    rw [perform, faultingOperationChangesNothing.1 Config.machine .step s f h]

/-! ### `DU` (R88) -/

/-- From `DU` = 0, the instructions that write `DU` leave it 1, and the others leave it 0. -/
theorem InstrEffect.du_iff {depth : Option Nat} {s t : State} {ws : List Elem} {rs : List Reg}
    (h : InstrEffect depth s ws rs t) (hs : s.du = false) : t.du = true ↔ .du ∈ ws := by
  cases h with
  | clear | draw => simp
  | ret | jump | call | skip | load | result | index => simp [hs]

/-- The rows of the access matrix with a `w` in the `DU` column are those of `00E0` and `DXYN` (R24). -/
theorem du_mem_instrWrites_iff (i : Instr) :
    .du ∈ instrWrites i ↔ encode i = 0x00E0 ∨ (encode i).toNat / 4096 = 0xD := by
  rw [show (0x00E0 : Word) = encode .cls from rfl, encode_injective.eq_iff, encode_div_eq_row_op]
  cases i <;> simp [instrWrites, Instr.row, fieldOp]

/-- Settles O12: a step begins with `DU` = 0, and only the two instructions whose rows write it set it. -/
theorem displayUpdatedAfterClearOrDrawOnly : Obligations.DisplayUpdatedAfterClearOrDrawOnly := by
  intro s t w hw h
  obtain ⟨i, u, rfl, hu, rfl⟩ := step_next_encode hw h
  rw [State.tickTimers_du, (exec_effect hu).du_iff rfl, du_mem_instrWrites_iff]

/-! ### `PC` (R83) -/

/-- Within the fetch bound the advance of `PC` does not wrap. -/
theorem Fetches.beginStep_pc_toNat {s : State} {w : Word} (h : Fetches s w) :
    (s.beginStep w).pc.toNat = s.pc.toNat + 2 := by
  obtain ⟨bound, -⟩ := h
  rw [State.beginStep_pc]
  bv_omega

/-- Apart from jump, call, return and skips, no row of the access matrix has a `w` in the `PC` column (R24). -/
theorem pc_notMem_instrWrites {i : Instr} (ret : encode i ≠ 0x00EE)
    (op : (encode i).toNat / 4096 ∉ [0x1, 0x2, 0x3, 0x4, 0x5, 0x9]) : Elem.pc ∉ instrWrites i := by
  rw [encode_div_eq_row_op] at op
  cases i with
  | ret => exact absurd rfl ret
  | jp | call | seImm | sneImm | seReg | sneReg => simp [Instr.row, fieldOp] at op
  | _ => simp [instrWrites]

/-- The instructions of the families 3, 4, 5 and 9 are skips (R103 to R106). -/
theorem exec_skip_of_op {i : Instr} (op : (encode i).toNat / 4096 ∈ [0x3, 0x4, 0x5, 0x9]) (s : State) :
    ∃ c, exec i s = .next (s.skipIf c) := by
  rw [encode_div_eq_row_op] at op
  cases i with
  | seImm | sneImm | seReg | sneReg => exact ⟨_, rfl⟩
  | _ => simp [Instr.row, fieldOp] at op

/-- A skip leaves `PC` or advances it by 2, without a wrap below the top of the address range. -/
theorem skipIf_pc_toNat {s : State} (c : Bool) (h : s.pc.toNat ≤ 4096) :
    (s.skipIf c).pc.toNat = s.pc.toNat ∨ (s.skipIf c).pc.toNat = s.pc.toNat + 2 := by
  rw [State.skipIf_pc]
  split
  · right; bv_omega
  · left; rfl

/-- Settles O14: `PC` advances as the step begins, and of the instructions named only a skip moves it again. -/
theorem pcAdvancesByTwo : Obligations.PcAdvancesByTwo := by
  intro s t w hw h
  have begun := hw.beginStep_pc_toNat
  have bound := hw.1
  obtain ⟨i, u, rfl, hu, rfl⟩ := step_next_encode hw h
  rw [State.tickTimers_pc]
  constructor
  · intro ret op
    have kept : u.pc = (s.beginStep (encode i)).pc := (exec_effect hu).frame .pc (pc_notMem_instrWrites ret op)
    rw [kept, begun]
  · intro op
    obtain ⟨c, skip⟩ := exec_skip_of_op op (s.beginStep (encode i))
    cases skip.symm.trans hu
    have moved := skipIf_pc_toNat (s := s.beginStep (encode i)) c (by omega)
    omega

/-! ### The outcomes of a step (R90) -/

/-- The outcomes R90 lists, on a machine of parameters `cfg`. -/
inductive ListedOutcome (cfg : Config) : Result → Prop
  | ok (t : State) : ListedOutcome cfg (.next t)
  | emptyStack : ListedOutcome cfg (.fault .emptyStack)
  | outOfBounds (info : Word) : ListedOutcome cfg (.fault (.outOfBounds info))
  | unknownOpcode (w : Word) : ListedOutcome cfg (.fault (.unknownOpcode w))
  | stackOverflow {d : Nat} (h : cfg.stackDepth = some d) : ListedOutcome cfg (.fault .stackOverflow)

/-- A stack is full only at a finite `STACK_DEPTH` (R195). -/
theorem stackDepth_of_stackFull {s : State} : ∀ {depth : Option Nat}, s.stackFull depth = true → ∃ d, depth = some d
  | some d, _ => ⟨d, rfl⟩

section
variable (cfg : Config) (s : State)

theorem execRet_listed : ListedOutcome cfg (execRet s) := by
  obtain ⟨-, e⟩ | ⟨a, rest, -, e⟩ := execRet_cases s
  · rw [e]; exact .emptyStack
  · rw [e]; exact .ok _

theorem callWith_listed (nnn : Imm12) : ListedOutcome cfg (callWith cfg.stackDepth nnn s) := by
  obtain ⟨full, e⟩ | ⟨-, e⟩ := callWith_cases cfg.stackDepth nnn s
  · obtain ⟨d, hd⟩ := stackDepth_of_stackFull full
    rw [e]; exact .stackOverflow hd
  · rw [e]; exact .ok _

theorem execDrw_listed (x y : Reg) (n : Nibble) : ListedOutcome cfg (execDrw x y n s) := by
  obtain ⟨-, e⟩ | ⟨-, e⟩ := execDrw_cases x y n s
  · rw [e]; exact .outOfBounds s.i
  · rw [e]; exact .ok _

/-- An instruction completes, or raises the one fault of its own: `00EE`, `2NNN` and `DXYN` alone have one (R196). -/
theorem execWith_listed : ∀ i, ListedOutcome cfg (execWith cfg i s)
  | .ret => execRet_listed cfg s
  | .call nnn => callWith_listed cfg s nnn
  | .drw x y n => execDrw_listed cfg s x y n
  | .cls | .jp _ | .seImm .. | .sneImm .. | .seReg .. | .sneReg .. | .ldImm .. | .addImm .. | .ldReg .. | .orReg ..
  | .andReg .. | .xorReg .. | .addReg .. | .sub .. | .subn .. | .shr .. | .shl .. | .ldI _ => .ok _

end

/-- The tick of a completed step is no outcome of its own, and a fault passes unchanged. -/
theorem completeStep_listed {cfg : Config} {r : Result} (h : ListedOutcome cfg r) :
    ListedOutcome cfg (completeStep r) := by
  cases h with
  | ok t => exact .ok t.tickTimers
  | emptyStack => exact .emptyStack
  | outOfBounds info => exact .outOfBounds info
  | unknownOpcode w => exact .unknownOpcode w
  | stackOverflow h => exact .stackOverflow h

/-- A fetch faults at the bound or on a word that is no instruction (R196). -/
theorem fetch_fault {s : State} {strict : Bool} {f : Fault} (h : s.fetch strict = .fault f) :
    f = .outOfBounds s.pc ∨ ∃ w, f = .unknownOpcode w := by
  rcases Nat.lt_or_ge 4094 s.pc.toNat with outside | inside
  · cases (fetch_outOfBounds strict outside).symm.trans h
    exact .inl rfl
  · rw [fetch_of_fetches strict (fetches_of_bound inside)] at h
    split at h
    · cases h
    · cases h
      exact .inr ⟨_, rfl⟩

theorem stepWith_listed (cfg : Config) (s : State) : ListedOutcome cfg (stepWith cfg s) := by
  rw [stepWith]
  cases fetched : s.fetch cfg.strictLowNibble59 with
  | insn w i => exact completeStep_listed (execWith_listed cfg (s.beginStep w) i)
  | fault f =>
    obtain rfl | ⟨w, rfl⟩ := fetch_fault fetched
    · exact .outOfBounds s.pc
    · exact .unknownOpcode w

/-- Settles O16: a fault of the fetch and the outcome of an instruction are both in R90's list. -/
theorem stepCompletesOrFaultsByName : Obligations.StepCompletesOrFaultsByName := by
  intro cfg s
  have listed := stepWith_listed cfg s
  generalize stepWith cfg s = outcome at listed ⊢
  cases listed with
  | ok t => exact .inl ⟨t, rfl⟩
  | emptyStack => exact .inr (.inl rfl)
  | outOfBounds info => exact .inr (.inr (.inl ⟨info, rfl⟩))
  | unknownOpcode w => exact .inr (.inr (.inr (.inl ⟨w, rfl⟩)))
  | stackOverflow h => exact .inr (.inr (.inr (.inr ⟨rfl, _, h⟩)))

end Sys2Proof.Machine
end

section
/-! Control flow: return, jump, call and the skips, with the step after one that leaves `PC` beyond the fetch bound
(41_control_flow rules R100 to R106). -/

namespace Sys2Proof.Machine

/-! ### A step that leaves `PC` beyond the fetch bound (R80, R81) -/

section
variable {s u : State} {w : Word} {i : Instr}

/-- The step of an instruction that completes is that instruction's state, ticked (R81). -/
theorem step_of_exec_next (hw : Fetches s w) (hi : decodeWord false w = .instr i)
    (hu : exec i (s.beginStep w) = .next u) : step s = .next u.tickTimers := by
  rw [step_of_fetches hw hi, hu, completeStep]

/-- Nothing checks the `PC` an instruction leaves but the fetch of the next step (R80). -/
theorem step_then_outOfBounds (hw : Fetches s w) (hi : decodeWord false w = .instr i)
    (hu : exec i (s.beginStep w) = .next u) {a : Word} (pc : u.pc = a) (outside : 4094 < a.toNat) :
    step s = .next u.tickTimers ∧ step u.tickTimers = .fault (.outOfBounds a) := by
  subst pc
  exact ⟨step_of_exec_next hw hi hu, step_of_pc_outOfBounds outside⟩

end

/-! ### Return (R100) -/

theorem exec_ret_of_cons {s : State} {a : Word} {rest : List Word} (h : s.stack = a :: rest) :
    exec .ret s = .next { s with pc := a, stack := rest } := by
  obtain ⟨empty, -⟩ | ⟨a', rest', top, e⟩ := execRet_cases s
  · cases h.symm.trans empty
  · cases h.symm.trans top
    exact e

theorem exec_ret_of_nil {s : State} (h : s.stack = []) : exec .ret s = .fault .emptyStack := by
  obtain ⟨-, e⟩ | ⟨a, rest, top, -⟩ := execRet_cases s
  · exact e
  · cases h.symm.trans top

/-- Settles O27: the step executes the return on the stack it began with, and only the next fetch checks `PC`. -/
theorem returnPopsOrFaultsEmptyStack : Obligations.ReturnPopsOrFaultsEmptyStack := by
  have decoded (strict : Bool) : decodeWord strict 0x00EE = .instr .ret :=
    decodeOfEncodeIsInstruction strict .ret rfl
  refine ⟨decoded, fun _ _ _ => exec_ret_of_cons, fun _ => exec_ret_of_nil, ?_, ?_⟩
  · intro s hw empty
    apply perform_step_of_fault
    rw [step_of_fetches hw (decoded false), exec_ret_of_nil (s := s.beginStep 0x00EE) empty, completeStep]
  · intro s a rest hw top outside
    exact ⟨_, step_then_outOfBounds hw (decoded false) (exec_ret_of_cons (s := s.beginStep 0x00EE) top) rfl outside⟩

/-! ### Jump (R101) -/

theorem exec_jp (nnn : Imm12) (s : State) : exec (.jp nnn) s = .next (s.setPc (zext16 nnn)) := rfl

/-- Settles O28: the target is the zero-extended operand, and 0xFFF is beyond the fetch bound. -/
theorem jumpSetsPc : Obligations.JumpSetsPc := by
  refine ⟨fun strict nnn => decodeOfEncodeIsInstruction strict (.jp nnn) rfl, ?_, ?_⟩
  · intro nnn s
    exact ⟨_, exec_jp nnn s, rfl, zext16_toNat nnn⟩
  · intro s hw
    have decoded : decodeWord false 0x1FFF = .instr (.jp 0xFFF) := decodeOfEncodeIsInstruction false (.jp 0xFFF) rfl
    exact ⟨_, step_then_outOfBounds hw decoded (exec_jp 0xFFF _) rfl (by decide)⟩

/-! ### Call (R102) -/

/-- The machine's stack is unbounded, so its `2NNN` always pushes and jumps (R5, D6). -/
theorem exec_call (nnn : Imm12) (s : State) : exec (.call nnn) s = .next ((s.push s.pc).setPc (zext16 nnn)) := rfl

/-- `2NNN` at the full depth of a finite stack (R102, R195, D6). -/
theorem callWith_of_full {d : Nat} {s : State} (nnn : Imm12) (full : d ≤ s.stack.length) :
    callWith (some d) nnn s = .fault .stackOverflow := by
  obtain ⟨-, e⟩ | ⟨room, -⟩ := callWith_cases (some d) nnn s
  · exact e
  · rw [stackFull_some_eq_false_iff] at room
    omega

/-- Every word of the 0x2 family is a call (R63). -/
theorem decodeWord_call_of_op {w : Word} (strict : Bool) (op : w.toNat / 4096 = 0x2) :
    decodeWord strict w = .instr (.call (fieldNNN w)) := by
  have decoded := decodeOfEncodeIsInstruction strict (.call (fieldNNN w)) rfl
  rwa [encode, encodeNNN_fields op] at decoded

/-- Settles O29: the pushed address is the `PC` the step advanced, which does not wrap within the fetch bound. -/
theorem callPushesReturnAddress : Obligations.CallPushesReturnAddress := by
  refine ⟨fun strict nnn => decodeOfEncodeIsInstruction strict (.call nnn) rfl, ?_, ?_, ?_⟩
  · intro nnn s
    exact ⟨_, exec_call nnn s, rfl, zext16_toNat nnn, rfl⟩
  · intro s t w hw op h
    have stepped := step_of_exec_next hw (decodeWord_call_of_op false op) (exec_call (fieldNNN w) (s.beginStep w))
    cases stepped.symm.trans h
    exact ⟨(s.beginStep w).pc, rfl, hw.beginStep_pc_toNat⟩
  · intro strict nnn s
    exact callWith_of_full nnn le_rfl

/-- Settles O30: the entry a call leaves on top is the one a return pops. -/
theorem returnUndoesCall : Obligations.ReturnUndoesCall := by
  intro nnn s
  exact ⟨_, exec_call nnn s, fun _ => exec_ret_of_cons⟩

/-! ### Skips (R103 to R106) -/

/-- The two skips on a pair of values are complements: on equal values the first is taken, on others the second. -/
theorem skip_on_equality_or_inequality (s : State) (a b : Byte) :
    (a = b → (.next (s.skipIf (a == b)) : Result) = .next { s with pc := s.pc + 2 } ∧
      (.next (s.skipIf (a != b)) : Result) = .next s) ∧
    (a ≠ b → (.next (s.skipIf (a == b)) : Result) = .next s ∧
      (.next (s.skipIf (a != b)) : Result) = .next { s with pc := s.pc + 2 }) := by
  constructor
  · intro equal
    rw [bne, beq_iff_eq.2 equal]
    exact ⟨rfl, rfl⟩
  · intro different
    rw [bne, beq_eq_false_iff_ne.2 different]
    exact ⟨rfl, rfl⟩

/-- Settles O31: the two skips are complements, and a skip at the last word of memory leaves `PC` at 0x1002. -/
theorem skipOnImmediate : Obligations.SkipOnImmediate := by
  have decodedSe (strict : Bool) (x : Reg) (nn : Byte) := decodeOfEncodeIsInstruction strict (.seImm x nn) rfl
  refine ⟨fun strict x nn => ⟨decodedSe strict x nn, decodeOfEncodeIsInstruction strict (.sneImm x nn) rfl⟩,
    fun x nn s => skip_on_equality_or_inequality s (s.readV x) nn, ?_⟩
  intro x nn s last hw equal
  have skipped := ((skip_on_equality_or_inequality (s.beginStep (encode (.seImm x nn))) (s.readV x) nn).1 equal).1
  have pc : s.pc + 2 + 2 = 0x1002 := by rw [last]; rfl
  obtain ⟨stepped, faulted⟩ := step_then_outOfBounds hw (decodedSe false x nn) skipped pc (by decide)
  exact ⟨_, stepped, pc, faulted⟩

/-- With the strict parameter a word of family 5 or 9 with a low nibble other than 0 is unknown (R66). -/
theorem decodeWord_strict_unknown {w : Word} (op : w.toNat / 4096 ∈ [0x5, 0x9]) (low : w.toNat % 16 ≠ 0) :
    decodeWord true w = .unknownOpcode w := by
  have nibble : fieldN w ≠ 0 := fun h => low (fieldN_eq_iff.1 h)
  obtain ⟨unknown5, unknown9⟩ := decodeWord_registerSkip_unknown (fieldX w) (fieldY w) nibble
  rw [List.mem_pair] at op
  obtain op5 | op9 := op
  · rwa [encode, encodeXYN_fields op5 rfl] at unknown5
  · rwa [encode, encodeXYN_fields op9 rfl] at unknown9

/-- Settles O32: the low nibble is no part of the comparison, and a register is equal to itself. -/
theorem skipOnRegister : Obligations.SkipOnRegister := by
  refine ⟨fun x y n => ⟨decodeOfEncodeIsInstruction false (.seReg x y n) rfl,
    decodeOfEncodeIsInstruction false (.sneReg x y n) rfl⟩, fun w => decodeWord_strict_unknown, ?_⟩
  intro x y n s
  obtain ⟨taken, notTaken⟩ := skip_on_equality_or_inequality s (s.readV x) (s.readV y)
  exact ⟨taken, notTaken, (skip_on_equality_or_inequality s (s.readV x) (s.readV x)).1 rfl⟩

end Sys2Proof.Machine
end

section
/-! Registers, arithmetic and logic: what each instruction writes to `V[x]` and, in the five with a flag, to VF last
(42_register_alu rules R120 to R132, decision D5). -/

namespace Sys2Proof.Machine

/-! ### Reading the registers after the two kinds of write (R11, R132) -/

section
variable (s : State) {x r : Reg} (b : Byte) (f : Bool)

theorem readV_writeV_same : (s.writeV x b).readV x = b := by
  rw [State.readV_writeV, if_pos rfl]

theorem readV_writeV_of_ne (other : r ≠ x) : (s.writeV x b).readV r = s.readV r := by
  rw [State.readV_writeV, if_neg other]

theorem readV_writeResultFlag_vf : (s.writeResultFlag x b f).readV vf = flagByte f := by
  rw [State.readV_writeResultFlag, if_pos rfl]

theorem readV_writeResultFlag_same (notVf : x ≠ vf) : (s.writeResultFlag x b f).readV x = b := by
  rw [State.readV_writeResultFlag, if_neg notVf, if_pos rfl]

theorem readV_writeResultFlag_of_ne (other : r ≠ x) (notVf : r ≠ vf) :
    (s.writeResultFlag x b f).readV r = s.readV r := by
  rw [State.readV_writeResultFlag, if_neg notVf, if_neg other]

end

/-! ### The words of family 8 (R63, R70) -/

/-- A word of family 8, as the statements write it, with the sub-opcode in the constant before the registers. -/
theorem decodeWord_alu {i : Instr} {x y : Reg} {n : Nibble} {base : Nat} (strict : Bool)
    (wf : i.wellFormed strict = true) (word : encode i = encodeXYN 0x8 x y n) (sub : base = 0x8000 + n.toNat) :
    decodeWord strict (BitVec.ofNat 16 (base + x.val * 256 + y.val * 16)) = .instr i := by
  have reordered : base + x.val * 256 + y.val * 16 = 0x8 * 4096 + x.val * 256 + y.val * 16 + n.toNat := by omega
  rw [reordered, ← encodeXYN, ← word]
  exact decodeOfEncodeIsInstruction strict i wf

/-! ### Immediate forms, copy and index (R120 to R122, R131) -/

theorem exec_ldImm (x : Reg) (nn : Byte) (s : State) : exec (.ldImm x nn) s = .next (s.writeV x nn) := rfl

theorem exec_addImm (x : Reg) (nn : Byte) (s : State) :
    exec (.addImm x nn) s = .next (s.writeV x (sum8 (s.readV x) nn)) := rfl

theorem exec_ldReg (x y : Reg) (s : State) : exec (.ldReg x y) s = .next (s.writeV x (s.readV y)) := rfl

theorem exec_ldI (nnn : Imm12) (s : State) : exec (.ldI nnn) s = .next (s.setI (zext16 nnn)) := rfl

/-- Settles O34: the instruction is one write to `V[x]`. -/
theorem loadImmediate : Obligations.LoadImmediate := by
  refine ⟨fun strict x nn => decodeOfEncodeIsInstruction strict (.ldImm x nn) rfl, fun x nn s => ?_⟩
  exact ⟨_, exec_ldImm x nn s, Frame.writeV s x nn, fun r => State.readV_writeV s x r nn⟩

/-- Settles O35: one write to `V[x]`, of the sum modulo 256. -/
theorem addImmediateWraps : Obligations.AddImmediateWraps := by
  refine ⟨fun strict x nn => decodeOfEncodeIsInstruction strict (.addImm x nn) rfl, fun x nn s => ?_⟩
  refine ⟨_, exec_addImm x nn s, Frame.writeV s x _, ?_, fun r => readV_writeV_of_ne s _⟩
  rw [readV_writeV_same, sum8_toNat]

/-- Settles O36: one write to `V[x]`, of what `V[y]` held. -/
theorem copyRegister : Obligations.CopyRegister := by
  refine ⟨fun strict x y => decodeWord_alu strict (i := .ldReg x y) rfl rfl rfl, fun x y s => ?_⟩
  exact ⟨_, exec_ldReg x y s, Frame.writeV s x _, fun r => State.readV_writeV s x r _⟩

/-- Settles O42: the immediate is zero-extended to the width of `I`. -/
theorem loadIndexRegister : Obligations.LoadIndexRegister := by
  refine ⟨fun strict nnn => decodeOfEncodeIsInstruction strict (.ldI nnn) rfl, fun nnn s => ?_⟩
  exact ⟨_, exec_ldI nnn s, Frame.setI s _, zext16_toNat nnn⟩

/-! ### Bitwise logic (R123 to R125) -/

theorem exec_orReg (x y : Reg) (s : State) : exec (.orReg x y) s = .next (s.writeV x (s.readV x ||| s.readV y)) := rfl

theorem exec_andReg (x y : Reg) (s : State) : exec (.andReg x y) s = .next (s.writeV x (s.readV x &&& s.readV y)) := rfl

theorem exec_xorReg (x y : Reg) (s : State) : exec (.xorReg x y) s = .next (s.writeV x (s.readV x ^^^ s.readV y)) := rfl

/-- An instruction that is one write to `V[x]`, with the written byte given bit by bit. -/
theorem exists_next_of_writeV_bits {i : Instr} {s : State} {x : Reg} {b : Byte} {bit : Nat → Bool}
    (written : exec i s = .next (s.writeV x b)) (bits : ∀ k, b.getLsbD k = bit k) :
    ∃ t, exec i s = .next t ∧ Frame [.v] s t ∧ (∀ r, r ≠ x → t.readV r = s.readV r) ∧
      ∀ k, (t.readV x).getLsbD k = bit k := by
  refine ⟨_, written, Frame.writeV s x b, fun r => readV_writeV_of_ne s b, fun k => ?_⟩
  rw [readV_writeV_same, bits]

/-- Settles O37: each of the three is one write to `V[x]`, of a bitwise operation. -/
theorem bitwiseLogicLeavesVf : Obligations.BitwiseLogicLeavesVf := by
  constructor
  · intro strict x y
    exact ⟨decodeWord_alu strict (i := .orReg x y) rfl rfl rfl, decodeWord_alu strict (i := .andReg x y) rfl rfl rfl,
      decodeWord_alu strict (i := .xorReg x y) rfl rfl rfl⟩
  · intro x y s
    exact ⟨exists_next_of_writeV_bits (exec_orReg x y s) fun _ => BitVec.getLsbD_or,
      exists_next_of_writeV_bits (exec_andReg x y s) fun _ => BitVec.getLsbD_and,
      exists_next_of_writeV_bits (exec_xorReg x y s) fun _ => BitVec.getLsbD_xor⟩

/-! ### Results and flags as numbers (R126 to R130, R133) -/

section
variable (a b : Byte)

/-- The difference modulo 256 of the unsigned values, taken in the integers (R127). -/
theorem diff8_toNat_cast : ((diff8 a b).toNat : Int) = ((a.toNat : Int) - b.toNat) % 256 := by
  have := b.isLt
  rw [diff8_toNat]
  omega

theorem flagByte_decide (p : Prop) [Decidable p] : flagByte (decide p) = if p then 0x01 else 0x00 := by
  simp only [flagByte, decide_eq_true_eq]

theorem flagByte_carryOut : flagByte (carryOut a b) = if a.toNat + b.toNat > 255 then 0x01 else 0x00 :=
  flagByte_decide _

theorem flagByte_noBorrow : flagByte (noBorrow a b) = if a.toNat ≥ b.toNat then 0x01 else 0x00 :=
  flagByte_decide _

theorem lowBit_eq_decide : lowBit a = decide (a.toNat % 2 = 1) := by
  rw [lowBit, BitVec.getLsbD, Nat.testBit_zero]

theorem highBit_eq_decide : highBit a = decide (a.toNat ≥ 128) :=
  (BitVec.msb_eq_getLsbD_last a).symm.trans (BitVec.msb_eq_decide a)

theorem flagByte_lowBit : flagByte (lowBit a) = if a.toNat % 2 = 1 then 0x01 else 0x00 := by
  rw [lowBit_eq_decide, flagByte_decide]

theorem flagByte_highBit : flagByte (highBit a) = if a.toNat ≥ 128 then 0x01 else 0x00 := by
  rw [highBit_eq_decide, flagByte_decide]

end

/-! ### The instructions with a flag (R126 to R130) -/

section
variable (x y : Reg) (s : State)

theorem exec_addReg : exec (.addReg x y) s =
    .next (s.writeResultFlag x (sum8 (s.readV x) (s.readV y)) (carryOut (s.readV x) (s.readV y))) := rfl

theorem exec_sub : exec (.sub x y) s =
    .next (s.writeResultFlag x (diff8 (s.readV x) (s.readV y)) (noBorrow (s.readV x) (s.readV y))) := rfl

theorem exec_subn : exec (.subn x y) s =
    .next (s.writeResultFlag x (diff8 (s.readV y) (s.readV x)) (noBorrow (s.readV y) (s.readV x))) := rfl

theorem exec_shr : exec (.shr x y) s =
    .next (s.writeResultFlag x (shiftRight1 (s.readV x)) (lowBit (s.readV x))) := rfl

theorem exec_shl : exec (.shl x y) s =
    .next (s.writeResultFlag x (shiftLeft1 (s.readV x)) (highBit (s.readV x))) := rfl

end

/-- Settles O38: the sum goes to `V[x]`, then the carry to VF. -/
theorem addRegisterCarry : Obligations.AddRegisterCarry := by
  refine ⟨fun strict x y => decodeWord_alu strict (i := .addReg x y) rfl rfl rfl, fun x y s => ?_⟩
  refine ⟨_, exec_addReg x y s, Frame.writeResultFlag s x _ _, fun notVf => ?_, ?_,
    fun r => readV_writeResultFlag_of_ne s _ _⟩
  · rw [readV_writeResultFlag_same s _ _ notVf, sum8_toNat]
  · rw [readV_writeResultFlag_vf, flagByte_carryOut]

/-- The two subtractions differ in which operand is subtracted from which (R127, R129). -/
theorem exists_next_of_difference {i : Instr} {s : State} {x : Reg} {a b : Byte}
    (written : exec i s = .next (s.writeResultFlag x (diff8 a b) (noBorrow a b))) :
    ∃ t, exec i s = .next t ∧ Frame [.v] s t ∧
      (x ≠ 15 → ((t.readV x).toNat : Int) = ((a.toNat : Int) - b.toNat) % 256) ∧
      t.readV 15 = (if a.toNat ≥ b.toNat then 1 else 0) ∧ ∀ r, r ≠ x → r ≠ 15 → t.readV r = s.readV r := by
  refine ⟨_, written, Frame.writeResultFlag s x _ _, fun notVf => ?_, ?_, fun r => readV_writeResultFlag_of_ne s _ _⟩
  · rw [readV_writeResultFlag_same s _ _ notVf, diff8_toNat_cast]
  · rw [readV_writeResultFlag_vf, flagByte_noBorrow]

/-- Settles O39: the difference goes to `V[x]`, then not-borrow to VF. -/
theorem subtractNoBorrow : Obligations.SubtractNoBorrow :=
  ⟨fun strict x y => decodeWord_alu strict (i := .sub x y) rfl rfl rfl,
    fun x y s => exists_next_of_difference (exec_sub x y s)⟩

/-- Settles O40: as O39, with the operands exchanged. -/
theorem subtractReversedNoBorrow : Obligations.SubtractReversedNoBorrow :=
  ⟨fun strict x y => decodeWord_alu strict (i := .subn x y) rfl rfl rfl,
    fun x y s => exists_next_of_difference (exec_subn x y s)⟩

/-- An instruction whose writes do not depend on `y`, with result and flag given as numbers (R128, R130, R68). -/
theorem exists_next_of_shift {shift : Reg → Instr} {s : State} {x : Reg} {b : Byte} {f : Bool} {result out : Nat}
    (written : ∀ y, exec (shift y) s = .next (s.writeResultFlag x b f)) (hresult : b.toNat = result)
    (hout : (flagByte f).toNat = out) (y : Reg) :
    ∃ t, exec (shift y) s = .next t ∧ Frame [.v] s t ∧ (x ≠ 15 → (t.readV x).toNat = result) ∧
      (t.readV 15).toNat = out ∧ (∀ r, r ≠ x → r ≠ 15 → t.readV r = s.readV r) ∧
      ∀ y', exec (shift y') s = exec (shift y) s := by
  refine ⟨_, written y, Frame.writeResultFlag s x _ _, fun notVf => ?_, ?_,
    fun r => readV_writeResultFlag_of_ne s _ _, fun y' => (written y').trans (written y).symm⟩
  · rw [readV_writeResultFlag_same s _ _ notVf, hresult]
  · rw [readV_writeResultFlag_vf, hout]

/-- Settles O41: the shifted value goes to `V[x]`, then the bit shifted out to VF. -/
theorem shiftsMoveBitToVf : Obligations.ShiftsMoveBitToVf := by
  constructor
  · intro strict x y
    exact ⟨decodeWord_alu strict (i := .shr x y) rfl rfl rfl, decodeWord_alu strict (i := .shl x y) rfl rfl rfl⟩
  · intro x y s
    exact ⟨exists_next_of_shift (shift := .shr x) (exec_shr x · s) (shiftRight1_toNat _) (lowBit_toNat _) y,
      exists_next_of_shift (shift := .shl x) (exec_shl x · s) (shiftLeft1_toNat _) (highBit_toNat _) y⟩

/-! ### VF as an operand and as the destination (R132, D5) -/

/-- At `x = 15` the flag is what an instruction with a flag leaves in VF, and its result is lost. -/
theorem exists_next_of_flag_at_vf {i : Instr} {s : State} {b flag : Byte} {f : Bool}
    (written : exec i s = .next (s.writeResultFlag 15 b f)) (value : flagByte f = flag) :
    ∃ t, exec i s = .next t ∧ t.readV 15 = flag :=
  ⟨_, written, (readV_writeResultFlag_vf s b f).trans value⟩

/-- At `x ≠ 15` the result is what an instruction with a flag leaves in `V[x]`. -/
theorem exists_next_of_result {i : Instr} {s : State} {x : Reg} {b : Byte} {f : Bool} {n : Nat} (notVf : x ≠ 15)
    (written : exec i s = .next (s.writeResultFlag x b f)) (value : b.toNat = n) :
    ∃ t, exec i s = .next t ∧ (t.readV x).toNat = n :=
  ⟨_, written, (congrArg BitVec.toNat (readV_writeResultFlag_same s b f notVf)).trans value⟩

/-- Settles O43: result and flag are computed from the registers on entry, and the flag is the last write. -/
theorem flagSurvivesAtVf : Obligations.FlagSurvivesAtVf := by
  constructor
  · intro y s
    exact ⟨exists_next_of_flag_at_vf (exec_addReg 15 y s) (flagByte_carryOut _ _),
      exists_next_of_flag_at_vf (exec_sub 15 y s) (flagByte_noBorrow _ _),
      exists_next_of_flag_at_vf (exec_subn 15 y s) (flagByte_noBorrow _ _),
      exists_next_of_flag_at_vf (exec_shr 15 y s) (flagByte_lowBit _),
      exists_next_of_flag_at_vf (exec_shl 15 y s) (flagByte_highBit _)⟩
  · intro x s notVf
    exact ⟨exists_next_of_result notVf (exec_addReg x 15 s) (sum8_toNat _ _),
      exists_next_of_result notVf (exec_sub x 15 s) (diff8_toNat _ _),
      exists_next_of_result notVf (exec_subn x 15 s) (diff8_toNat _ _)⟩

end Sys2Proof.Machine
end

section
/-! The display: the clear, and the sprite renderer against the sprite as a picture (43_display rules R140 to R147,
decision D7). -/

namespace Sys2Proof.Machine

/-! ### Clear (R140) -/

theorem exec_cls (s : State) : exec .cls s = .next (s.setDisp Display.blank).markUpdated := rfl

/-- Settles O44: the display is replaced by the blank one. -/
theorem clearBlanksDisplay : Obligations.ClearBlanksDisplay := by
  refine ⟨fun strict => decodeOfEncodeIsInstruction strict .cls rfl, fun s => ?_⟩
  exact ⟨_, exec_cls s, (exec_effect (exec_cls s)).frame, rfl, fun y x _ _ => Display.pixel_blank y x⟩

/-! ### The renderer against the picture (R141, R142, R147) -/

theorem Display.inside_of_lit {d : Display} {py px : Nat} (lit : d.pixel py px = true) : py < 32 ∧ px < 64 := by
  by_contra outside
  rw [Display.pixel_outside d outside] at lit
  cases lit

section
variable (s : State) (x y : Reg) (n py px : Nat)

/-- The picture's 1 bits by the renderer's origin: the place is in the sprite's box, and the byte of its row has the
bit of its column. -/
theorem spriteBit_eq : spriteBit s x y n py px =
    (decide (s.yOrigin y ≤ py ∧ py < s.yOrigin y + n ∧ s.xOrigin x ≤ px ∧ px ≤ s.xOrigin x + 7) &&
      (s.memRead1 (s.i.toNat + (py - s.yOrigin y))).getLsbD (7 - (px - s.xOrigin x))) := by
  simp only [spriteBit, Bool.decide_and, Bool.and_assoc]
  rfl

theorem pixel_drawSprite : (s.drawSprite x y n).disp.pixel py px =
    (s.disp.pixel py px != (decide (py < 32 ∧ px < 64) && spriteBit s x y n py px)) := by
  rw [State.drawSprite, Canvas.pixel_drawRows, spriteBit_eq, ← Bool.and_assoc, ← Bool.decide_and]
  have box : (s.yOrigin y + 0 ≤ py ∧ py < s.yOrigin y + 0 + n ∧ s.xOrigin x ≤ px ∧ px ≤ s.xOrigin x + 7 ∧
      py < 32 ∧ px < 64) ↔ ((py < 32 ∧ px < 64) ∧
      s.yOrigin y ≤ py ∧ py < s.yOrigin y + n ∧ s.xOrigin x ≤ px ∧ px ≤ s.xOrigin x + 7) := by omega
  rw [decide_eq_decide.2 box, State.memRead1]

theorem collision_drawSprite : (s.drawSprite x y n).collision = true ↔ spriteCollides s x y n := by
  rw [State.drawSprite, Canvas.collision_drawRows, spriteCollides]
  simp only [spriteBit_eq, Bool.and_eq_true, decide_eq_true_eq, State.memRead1, Nat.add_zero]
  constructor
  · rintro (h | ⟨py, px, top, bottom, left, right, bit, lit⟩)
    · cases h
    · obtain ⟨row, column⟩ := Display.inside_of_lit lit
      exact ⟨py, px, row, column, ⟨⟨top, bottom, left, right⟩, bit⟩, lit⟩
  · rintro ⟨py, px, -, -, ⟨⟨top, bottom, left, right⟩, bit⟩, lit⟩
    exact .inr ⟨py, px, top, bottom, left, right, bit, lit⟩

end

/-- The picture depends on memory, `I` and the two coordinates alone. -/
theorem spriteBit_congr {s u : State} {x y : Reg} (mem : u.mem = s.mem) (i : u.i = s.i) (vx : u.readV x = s.readV x)
    (vy : u.readV y = s.readV y) : spriteBit u x y = spriteBit s x y := by
  funext n py px
  simp only [spriteBit, State.memRead1, mem, i, vx, vy]

/-! ### A completed draw (R143 to R145) -/

theorem flagByte_eq_zero_iff (f : Bool) : flagByte f = 0 ↔ f = false := by
  cases f <;> decide

theorem flagByte_eq_one_iff (f : Bool) : flagByte f = 1 ↔ f = true := by
  cases f <;> decide

section
variable {x y : Reg} {n : Nibble} {s t : State} (h : exec (.drw x y n) s = .next t)
include h

theorem eq_of_exec_drw : t = ((s.setDisp (s.drawSprite x y n.toNat).disp).writeV vf
    (flagByte (s.drawSprite x y n.toNat).collision)).markUpdated := by
  obtain ⟨-, e⟩ | ⟨-, e⟩ := execDrw_cases x y n s
  · cases e.symm.trans h
  · cases e.symm.trans h; rfl

/-- Every pixel becomes its old value XOR the sprite's bit there (R145). -/
theorem pixel_of_exec_drw (py px : Nat) : t.disp.pixel py px =
    (s.disp.pixel py px != (decide (py < 32 ∧ px < 64) && spriteBit s x y n.toNat py px)) := by
  rw [eq_of_exec_drw h]
  exact pixel_drawSprite s x y n.toNat py px

theorem pixel_ne_iff_spriteBit (py px : Nat) : t.disp.pixel py px ≠ s.disp.pixel py px ↔
    (py < 32 ∧ px < 64) ∧ spriteBit s x y n.toNat py px = true := by
  rw [pixel_of_exec_drw h]
  cases s.disp.pixel py px <;> simp [and_assoc]

theorem vf_of_exec_drw : t.readV vf = flagByte (s.drawSprite x y n.toNat).collision := by
  rw [eq_of_exec_drw h, State.readV_markUpdated, readV_writeV_same]

theorem vf_eq_one_iff_spriteCollides : t.readV vf = 1 ↔ spriteCollides s x y n.toNat := by
  rw [vf_of_exec_drw h, flagByte_eq_one_iff, collision_drawSprite]

theorem vf_eq_zero_iff_not_spriteCollides : t.readV vf = 0 ↔ ¬ spriteCollides s x y n.toNat := by
  rw [vf_of_exec_drw h, flagByte_eq_zero_iff, ← collision_drawSprite, Bool.not_eq_true]

/-- A 1 bit over a lit pixel is a pixel that the draw turned off (R144). -/
theorem spriteCollides_iff_turned_off : spriteCollides s x y n.toNat ↔
    ∃ py px, py < 32 ∧ px < 64 ∧ s.disp.pixel py px = true ∧ t.disp.pixel py px = false := by
  refine exists_congr fun py => exists_congr fun px => and_congr_right fun row => and_congr_right fun column => ?_
  rw [pixel_of_exec_drw h, decide_eq_true ⟨row, column⟩]
  cases s.disp.pixel py px <;> simp

end

/-- Settles O46: the renderer draws the picture, and VF is the last register written. -/
theorem drawXorsSpriteOntoDisplay : Obligations.DrawXorsSpriteOntoDisplay := by
  refine ⟨fun strict x y n => decodeOfEncodeIsInstruction strict (.drw x y n) rfl,
    fun x y n s => exec_drw_of_row_outside x y, fun x y n s inside => ?_⟩
  obtain ⟨t, h⟩ := exec_drw_of_rows_inside x y inside
  refine ⟨t, h, (exec_effect h).frame, ?_, ?_, (vf_eq_one_iff_spriteCollides h).2,
    (vf_eq_zero_iff_not_spriteCollides h).2, fun r other => (exec_effect h).readV (other ∘ List.mem_singleton.1)⟩
  · rw [eq_of_exec_drw h, State.markUpdated_du]
  · intro py px row column
    rw [pixel_of_exec_drw h, decide_eq_true ⟨row, column⟩, Bool.true_and]

/-- Settles O47: the picture has no 1 bit outside its box, and a changed or lit pixel is on the display. -/
theorem spriteIsClippedNotWrapped : Obligations.SpriteIsClippedNotWrapped := by
  intro x y n s t h xo yo
  have origin (py px : Nat) := spriteBit_eq s x y n.toNat py px
  rw [show s.xOrigin x = xo from rfl, show s.yOrigin y = yo from rfl] at origin
  refine ⟨fun py px changed => ?_, fun unlit => ?_, fun py px left right top bottom => ?_⟩
  · obtain ⟨inside, bit⟩ := (pixel_ne_iff_spriteBit h py px).1 changed
    rw [origin, Bool.and_eq_true, decide_eq_true_iff] at bit
    omega
  · refine (vf_eq_zero_iff_not_spriteCollides h).2 ?_
    rintro ⟨py, px, row, column, bit, lit⟩
    rw [origin, Bool.and_eq_true, decide_eq_true_iff] at bit
    rw [unlit py px (by omega) (by omega) (by omega) (by omega)] at lit
    cases lit
  · rw [pixel_of_exec_drw h, origin, decide_eq_true (by omega), decide_eq_true (by omega), Bool.true_and,
      Bool.true_and]

/-- Settles O48: VF is the flag of the collision, and a pixel changes only under a 1 bit. -/
theorem collisionMeansLitPixelTurnedOff : Obligations.CollisionMeansLitPixelTurnedOff := by
  intro x y n s t h
  have one := vf_eq_one_iff_spriteCollides h
  refine ⟨?_, one, one.trans (spriteCollides_iff_turned_off h), fun py px bit => ?_⟩
  · by_cases collides : spriteCollides s x y n.toNat
    · exact .inr (one.2 collides)
    · exact .inl ((vf_eq_zero_iff_not_spriteCollides h).2 collides)
  · rw [pixel_of_exec_drw h, bit, Bool.and_false, Bool.bne_false]

/-- Settles O49: both draws have the same picture, and XOR with it is its own inverse. -/
theorem drawingTwiceRestoresDisplay : Obligations.DrawingTwiceRestoresDisplay := by
  intro x y n s t u v first disp mem i vx vy second
  have picture := spriteBit_congr mem i vx vy
  constructor
  · refine Display.ext_pixel fun py px _ _ => ?_
    rw [pixel_of_exec_drw second, picture, disp, pixel_of_exec_drw first, Bool.bne_assoc, bne_self_eq_false,
      Bool.bne_false]
  · refine (vf_eq_one_iff_spriteCollides second).trans ?_
    rw [spriteCollides, picture, disp]

end Sys2Proof.Machine
end

section
/-! The timers: no instruction writes them, so a completed step is one tick of each (44_timer_unit rules R160 and
R161). -/

namespace Sys2Proof.Machine

/-- No row of the access matrix has a `w` in the `DT` column or the `ST` column (R24). -/
theorem timers_notMem_instrWrites (i : Instr) : Elem.dt ∉ instrWrites i ∧ Elem.st ∉ instrWrites i := by
  cases i <;> simp [instrWrites]

theorem exec_keeps_timers {i : Instr} {s t : State} (h : exec i s = .next t) : t.dt = s.dt ∧ t.st = s.st := by
  obtain ⟨dt, st⟩ := timers_notMem_instrWrites i
  exact ⟨(exec_effect h).frame .dt dt, (exec_effect h).frame .st st⟩

/-- Neither the fetch nor the instruction moves a timer, so the step does by its tick alone (R160). -/
theorem step_ticks_timers {s t : State} (h : step s = .next t) : t.dt = tick s.dt ∧ t.st = tick s.st := by
  obtain ⟨w, i, u, -, -, hu, rfl⟩ := step_next h
  obtain ⟨dt, st⟩ := exec_keeps_timers hu
  exact ⟨congrArg tick dt, congrArg tick st⟩

/-- Settles O50: a completed step ticks each timer, and a faulting one leaves the whole state. -/
theorem timersTickOncePerCompletedStep : Obligations.TimersTickOncePerCompletedStep := by
  constructor
  · intro s t h
    obtain ⟨dt, st⟩ := step_ticks_timers h
    rw [dt, st]
    exact ⟨tick_toNat s.dt, tick_toNat s.st⟩
  · intro s f h
    rw [perform, faultingOperationChangesNothing.1 Config.machine .step s f h]
    exact ⟨rfl, rfl⟩

/-- Settles O51, by induction on the number of steps: one tick, and then the ticks of the rest of the run. -/
theorem timersAfterManySteps : Obligations.TimersAfterManySteps := by
  intro k
  induction k with
  | zero =>
    intro s t h
    cases h
    exact ⟨rfl, rfl⟩
  | succ k ih =>
    intro s t h
    obtain ⟨u, first, rest⟩ := core_run_succ h
    obtain ⟨dt, st⟩ := timersTickOncePerCompletedStep.1 s u first
    obtain ⟨dt', st'⟩ := ih u t rest
    constructor
    · omega
    · omega

end Sys2Proof.Machine
end

section
/-! The host interface: the two loads and the reads and writes of one element (45_host_interface rules R171 to R173,
decisions D12, D15 and D21). -/

namespace Sys2Proof.Machine

/-! ### Bytes read back after a store (R40, R42) -/

section
variable {s : State} {base : Nat} {bs : List Byte} (hs : s.mem.wf = true) (bound : base + bs.length ≤ 4096)
include hs bound

/-- Consecutive bytes stored in memory are read back in order. -/
theorem memRead1_memWriteBytes_offset {k : Nat} (hk : k < bs.length) :
    (s.memWriteBytes base bs).memRead1 (base + k) = bs[k] := by
  have inside : base ≤ base + k ∧ base + k < base + bs.length := ⟨Nat.le_add_right .., Nat.add_lt_add_left hk base⟩
  rw [State.memRead1, State.memWriteBytes_mem, Memory.get_setBytes bs hs bound, if_pos inside, Nat.add_sub_cancel_left,
    List.getD_eq_getElem _ _ hk]

/-- A byte outside the stored range reads as before. -/
theorem memRead1_memWriteBytes_outside {a : Nat} (ha : a < base ∨ base + bs.length ≤ a) :
    (s.memWriteBytes base bs).memRead1 a = s.memRead1 a := by
  rw [State.memRead1, State.memWriteBytes_mem, Memory.get_setBytes bs hs bound, if_neg (by omega), State.memRead1]

end

theorem memRead1_memWrite1 {s : State} (hs : s.mem.wf = true) (a : Nat) (b : Byte) (a' : Nat) :
    (s.memWrite1 a b).memRead1 a' = if a' = a then b else s.memRead1 a' :=
  Memory.get_set a b hs a'

/-! ### The reply of a completed and of a faulting operation (R86, R175) -/

theorem perform_of_next {op : HostOp} {s t : State} (h : operate Config.machine op s = .next t) :
    perform op s = (t, reply op s (.next t)) := by
  rw [perform, performWith, h, State.after]

theorem perform_of_fault {op : HostOp} {s : State} {f : Fault} (h : operate Config.machine op s = .fault f) :
    perform op s = (s, .fault f) := by
  rw [perform, performWith, h, State.after, reply]

/-! ### The loads (R171, R172) -/

/-- Settles O52: the font region lies in memory, so the 80 bytes are stored there and read back; any other length is a
fault. -/
theorem loadFontWritesFontRegion : Obligations.LoadFontWritesFontRegion := by
  constructor
  · intro font s hs len
    obtain ⟨-, loaded⟩ | ⟨other, -⟩ := loadFont_cases font s
    · have bound : 0x050 + font.length ≤ 4096 := by omega
      exact ⟨_, perform_of_next (op := .loadFont font) loaded, Frame.memWriteBytes s _ _,
        fun k hk => memRead1_memWriteBytes_offset hs bound hk,
        fun a ha => memRead1_memWriteBytes_outside hs bound (by omega)⟩
    · exact absurd len other
  · intro font s len
    obtain ⟨eighty, -⟩ | ⟨-, faulted⟩ := loadFont_cases font s
    · exact absurd eighty len
    · exact perform_of_fault (op := .loadFont font) faulted

/-- Settles O53: an image that fits the program region is stored there and read back, and `PC` is then set, which no
read of memory sees; a longer one is a fault. -/
theorem loadWritesProgramAndPc : Obligations.LoadWritesProgramAndPc := by
  constructor
  · intro rom s hs len
    obtain ⟨-, loaded⟩ | ⟨long, -⟩ := load_cases rom s
    · have bound : 0x200 + rom.length ≤ 4096 := by omega
      exact ⟨_, perform_of_next (op := .load rom) loaded, (Frame.memWriteBytes s _ _).trans (Frame.setPc _ _), rfl,
        fun k hk => memRead1_memWriteBytes_offset hs bound hk,
        fun a ha => memRead1_memWriteBytes_outside hs bound ha⟩
    · exact absurd len (Nat.not_le_of_lt long)
  · intro rom s len
    obtain ⟨short, -⟩ | ⟨-, faulted⟩ := load_cases rom s
    · exact absurd short (Nat.not_le_of_lt len)
    · exact perform_of_fault (op := .load rom) faulted

/-! ### Reads and writes of one element (R173) -/

/-- Writing a byte of memory replaces that byte and no other. -/
theorem perform_write_mem {s : State} (hs : s.mem.wf = true) (a : Imm12) (b : Byte) :
    ∃ t, perform (.write (.mem a b)) s = (t, .ok) ∧ Frame [.mem] s t ∧ hostRead (.mem a) t = .byte b ∧
      ∀ a' : Nat, a' ≠ a.toNat → t.memRead1 a' = s.memRead1 a' := by
  refine ⟨s.memWrite1 a.toNat b, rfl, Frame.memWrite1 s _ _, ?_, fun a' other => ?_⟩
  · rw [hostRead, memRead1_memWrite1 hs, if_pos rfl]
  · rw [memRead1_memWrite1 hs, if_neg other]

/-- Writing a register replaces that register and no other. -/
theorem perform_write_v (s : State) (x : Reg) (b : Byte) :
    ∃ t, perform (.write (.v x b)) s = (t, .ok) ∧ Frame [.v] s t ∧ hostRead (.v x) t = .byte b ∧
      ∀ r, r ≠ x → t.readV r = s.readV r := by
  refine ⟨s.writeV x b, rfl, Frame.writeV s x b, ?_, fun r other => readV_writeV_of_ne s b other⟩
  rw [hostRead, readV_writeV_same]

/-- The machine's stack is unbounded, so every sequence may be written to it (R5, D6). -/
theorem perform_write_stack (s : State) (ws : List Word) :
    perform (.write (.stack ws)) s = ({ s with stack := ws }, .ok) := by
  obtain ⟨-, written⟩ | ⟨refused, -⟩ := hostWrite_stack_cases Config.machine ws s
  · exact perform_of_next (op := .write (.stack ws)) written
  · cases refused

/-- Settles O54: a read keeps the state, a write of memory or `V` is one store there, and a write of any other element
is that field's record update. -/
theorem hostWriteReplacesOneElement : Obligations.HostWriteReplacesOneElement :=
  ⟨fun _ _ => rfl, fun _ a b hs => perform_write_mem hs a b, perform_write_v, fun _ _ => rfl, fun _ _ => rfl,
    perform_write_stack, fun _ _ => rfl, fun _ _ => rfl⟩

end Sys2Proof.Machine
end

section
/-! Faults: their causes and infos, the fixed order in which a step checks for them, the overflow of a finite stack, and
their repetition (60_exceptions rules R190, R195, R196 and R198, decisions D6, D8 and D9). -/

namespace Sys2Proof.Machine

/-! ### The order of the checks (R196) -/

/-- The outcome of a check that gives `none`, or the fault to raise: completion, or exactly that fault. -/
inductive AnswersFault : Option Fault → Result → Prop
  | ok (t : State) : AnswersFault none (.next t)
  | fault (f : Fault) : AnswersFault (some f) (.fault f)

theorem AnswersFault.eq_fault_iff {check : Option Fault} {r : Result} (h : AnswersFault check r) (f : Fault) :
    r = .fault f ↔ check = some f := by
  cases h with
  | ok t => simp
  | fault g => simp

theorem AnswersFault.exists_next_iff {check : Option Fault} {r : Result} (h : AnswersFault check r) :
    (∃ t, r = .next t) ↔ check = none := by
  cases h with
  | ok t => simp
  | fault g => simp

/-- The tick of a completed step adds no fault and hides none (R86, R87). -/
theorem AnswersFault.completeStep {check : Option Fault} {r : Result} (h : AnswersFault check r) :
    AnswersFault check (completeStep r) := by
  cases h with
  | ok t => exact .ok t.tickTimers
  | fault f => exact .fault f

section
variable (cfg : Config) (s : State)

/-- The check of `2NNN` is the one its execution makes of the stack (R102, R195). -/
theorem instrFault_call (nnn : Imm12) :
    instrFault cfg s (.call nnn) = if s.stackFull cfg.stackDepth then some .stackOverflow else none := by
  obtain ⟨depth, strict⟩ := cfg
  cases depth with
  | none => rfl
  | some d => simp [instrFault, State.stackFull]

/-- The check of `DXYN` is the one its execution makes of the sprite's rows (R46). -/
theorem instrFault_drw (x y : Reg) (n : Nibble) :
    instrFault cfg s (.drw x y n) = if s.spriteInMemory n.toNat then none else some (.outOfBounds s.i) := by
  rw [instrFault]
  by_cases inside : s.spriteInMemory n.toNat = true
  · rw [if_pos inside, if_neg]
    rw [spriteInMemory_iff] at inside
    omega
  · rw [if_neg inside, if_pos]
    rw [spriteInMemory_iff] at inside
    omega

/-- The check looks at `I` and the stack alone, which the step has not touched when it begins its instruction (R81). -/
theorem instrFault_beginStep (w : Word) (i : Instr) : instrFault cfg (s.beginStep w) i = instrFault cfg s i := by
  cases i <;> rfl

theorem execRet_answersFault : AnswersFault (instrFault cfg s .ret) (execRet s) := by
  rw [instrFault]
  obtain ⟨empty, e⟩ | ⟨a, rest, top, e⟩ := execRet_cases s
  · rw [e, if_pos empty]; exact .fault _
  · rw [e, if_neg (by simp [top])]; exact .ok _

theorem callWith_answersFault (nnn : Imm12) :
    AnswersFault (instrFault cfg s (.call nnn)) (callWith cfg.stackDepth nnn s) := by
  rw [instrFault_call]
  obtain ⟨full, e⟩ | ⟨room, e⟩ := callWith_cases cfg.stackDepth nnn s
  · rw [e, full]; exact .fault _
  · rw [e, room]; exact .ok _

theorem execDrw_answersFault (x y : Reg) (n : Nibble) :
    AnswersFault (instrFault cfg s (.drw x y n)) (execDrw x y n s) := by
  rw [instrFault_drw]
  obtain ⟨outside, e⟩ | ⟨inside, e⟩ := execDrw_cases x y n s
  · rw [e, outside]; exact .fault _
  · rw [e, inside]; exact .ok _

/-- An instruction raises exactly the fault of its one check: `00EE`, `2NNN` and `DXYN` alone have one (R196). -/
theorem execWith_answersFault : ∀ i, AnswersFault (instrFault cfg s i) (execWith cfg i s)
  | .ret => execRet_answersFault cfg s
  | .call nnn => callWith_answersFault cfg s nnn
  | .drw x y n => execDrw_answersFault cfg s x y n
  | .cls | .jp _ | .seImm .. | .sneImm .. | .seReg .. | .sneReg .. | .ldImm .. | .addImm .. | .ldReg .. | .orReg ..
  | .andReg .. | .xorReg .. | .addReg .. | .sub .. | .subn .. | .shr .. | .shl .. | .ldI _ => .ok _

/-- A step meets its checks in the order of R196: the fetch bound, the decoder, the instruction. -/
theorem stepWith_answersFault : AnswersFault (stepFault cfg s) (stepWith cfg s) := by
  rw [stepFault, stepWith]
  rcases Nat.lt_or_ge 4094 s.pc.toNat with outside | inside
  · rw [if_pos outside, fetch_outOfBounds _ outside]
    exact .fault _
  · rw [if_neg (Nat.not_lt.2 inside), fetch_of_fetches _ (fetches_of_bound inside)]
    cases decodeWord cfg.strictLowNibble59 (s.memRead2 s.pc.toNat) with
    | unknownOpcode w => exact .fault _
    | instr i =>
      have executed := execWith_answersFault cfg (s.beginStep (s.memRead2 s.pc.toNat)) i
      rw [instrFault_beginStep] at executed
      exact executed.completeStep

end

/-- Settles O17: the fetch and the instruction each raise exactly the fault of their checks, and the tick adds none. -/
theorem stepFaultsInFixedOrder : Obligations.StepFaultsInFixedOrder := by
  intro cfg s
  have answered := stepWith_answersFault cfg s
  exact ⟨answered.eq_fault_iff, answered.exists_next_iff⟩

/-! ### The overflow of a finite stack (R102, R195) -/

/-- Once the word is fetched and decoded, the instruction's own check is the only one left (R196). -/
theorem stepFault_of_fetches {cfg : Config} {s : State} {w : Word} {i : Instr} (hw : Fetches s w)
    (hi : decodeWord cfg.strictLowNibble59 w = .instr i) : stepFault cfg s = instrFault cfg s i := by
  obtain ⟨-, word⟩ := (fetches_iff s w).1 hw
  rw [stepFault, if_neg (Nat.not_lt.2 hw.1), word, hi]

/-- The host gets the fault of a step as its reply on a machine of any parameters, and the state is as it was (R86,
R178). -/
theorem performWith_step_of_fault {cfg : Config} {s : State} {f : Fault} (h : stepWith cfg s = .fault f) :
    performWith cfg .step s = (s, .fault f) := by
  rw [performWith, operate, h, State.after, reply]

/-- `2NNN` below the depth of a finite stack calls as on an unbounded one (R102). -/
theorem callWith_of_room {d : Nat} {s : State} (nnn : Imm12) (room : s.stack.length < d) :
    callWith (some d) nnn s = .next ((s.push s.pc).setPc (zext16 nnn)) := by
  rw [callWith, (stackFull_some_eq_false_iff s d).2 room]
  rfl

/-- The machine's stack is unbounded, so `StackOverflow` is not among the outcomes of its step (R195, D6). -/
theorem step_ne_stackOverflow (s : State) : step s ≠ .fault .stackOverflow := by
  intro overflow
  have listed := stepWith_listed Config.machine s
  rw [stepWith_machine, overflow] at listed
  cases listed with
  | stackOverflow finite => cases finite

/-- Settles O19: only a finite depth lists the fault, the call compares the stack with it, and the step of any word of
the 0x2 family makes that check last. -/
theorem stackOverflowOnlyAtFiniteDepth : Obligations.StackOverflowOnlyAtFiniteDepth := by
  refine ⟨step_ne_stackOverflow, fun strict d nnn s => ⟨fun full => ?_, fun room => ?_⟩, ?_⟩
  · exact callWith_of_full nnn full.ge
  · rw [execWith_call, callWith_of_room nnn room, zext16, BitVec.ofNat_toNat]
    rfl
  · intro strict d w s hw op full
    have isFull : s.stackFull (some d) = true := decide_eq_true full.ge
    apply performWith_step_of_fault
    rw [(stepWith_answersFault _ s).eq_fault_iff, stepFault_of_fetches hw (decodeWord_call_of_op strict op),
      instrFault_call, if_pos isFull]

/-! ### The repetition of a fault (R198) -/

/-- An operation that leaves the state as it is leaves it so however often the host repeats it. -/
theorem performAll_replicate_of_state_eq {op : HostOp} {s : State} (h : (perform op s).1 = s) (k : Nat) :
    performAll (List.replicate k op) s = s := by
  induction k with
  | zero => rfl
  | succ k ih => rw [List.replicate_succ, performAll, List.foldl_cons, h, ← performAll, ih]

/-- Settles O11, by induction on the number of repeated steps: each leaves the state in which the next faults alike. -/
theorem faultRepeatsUntilHostActs : Obligations.FaultRepeatsUntilHostActs := by
  intro s f h k
  have faulted := perform_step_of_fault h
  have kept : (perform .step s).1 = s := by rw [faulted]
  rw [performAll_replicate_of_state_eq kept, faulted]

/-! ### Causes and infos (R190) -/

/-- Settles O56: the codes are the numbers of D8, and only `OutOfBounds` and `UnknownOpcode` carry a word (D9). -/
theorem faultCodesAndInfo : Obligations.FaultCodesAndInfo :=
  ⟨⟨rfl, rfl⟩, fun _ => ⟨rfl, rfl⟩, ⟨rfl, rfl⟩, fun _ => ⟨rfl, rfl⟩, ⟨rfl, rfl⟩⟩

end Sys2Proof.Machine
end

section
/-! The self-jump: a machine that jumps to its own instruction idles, and only the step's own bookkeeping goes on
(70_reset_and_hazards rule R226). -/

namespace Sys2Proof.Machine

/-- Every word of the 0x1 family is a jump (R63). -/
theorem decodeWord_jp_of_op {w : Word} (strict : Bool) (op : w.toNat / 4096 = 0x1) :
    decodeWord strict w = .instr (.jp (fieldNNN w)) := by
  have decoded := decodeOfEncodeIsInstruction strict (.jp (fieldNNN w)) rfl
  rwa [encode, encodeNNN_fields op] at decoded

/-- The `1NNN` that lies at its own target: within the fetch bound its operand is the whole `PC` (R101). -/
theorem zext16_fieldNNN_of_selfJump {w pc : Word} (bound : pc.toNat ≤ 4094) (self : w.toNat = 0x1000 + pc.toNat) :
    zext16 (fieldNNN w) = pc := by
  apply BitVec.eq_of_toNat_eq
  rw [zext16_toNat, fieldNNN_toNat]
  omega

/-- Settles O33: the jump puts back the `PC` the step advanced, so what is left is the step's own `DU`, `OPC` and
ticks. -/
theorem selfJumpIdles : Obligations.SelfJumpIdles := by
  intro s w hw self
  have bound : s.pc.toNat ≤ 4094 := hw.1
  have stepped := step_of_exec_next hw (decodeWord_jp_of_op false (by omega)) (exec_jp (fieldNNN w) (s.beginStep w))
  rw [zext16_fieldNNN_of_selfJump bound self] at stepped
  exact ⟨_, stepped, rfl, timersTickOncePerCompletedStep.1 s _ stepped⟩

end Sys2Proof.Machine
end
